-- ==== Sys2Proof/Word.lean ====
section
/-! DEFINITION. The two word types of GD-CORE and their plainest arithmetic (00_scope.md R4, section 5). -/

namespace Sys2Proof

/-- The contents of a register cell, of `pc` and of `FL`: `XLEN` = `PC_BITS` = `FL_BITS` = 8 (00_scope.md R4). -/
abbrev Word := BitVec 8

/-- One memory cell, opcode byte or operand byte: `CELL_BITS` = 8 (00_scope.md R4). -/
abbrev Byte := BitVec 8

/-- `STATUS.info`, nine bits wide at the port `fault_info[8:0]` (10_state.md R21). -/
abbrev Info := BitVec 9

/-- A register write reduces its value modulo 256 (00_scope.md section 5, `x[i] <- v`). -/
def narrow (n : Nat) : Word := BitVec.ofNat 8 n

end Sys2Proof
end

