-- ==== Sys2Proof/Syntax.lean ====
section
/-! DEFINITION. The instructions of GD-CORE: one constructor per row of spec/opcode_table.json (30_encoding.md
R50). A register operand is the whole operand byte `a` or `b` (30_encoding.md R48), not a three-bit index: a
byte above 7 is an instruction that the machine runs into a `RegIndexFault` (40_dispatcher.md R64). -/

namespace Sys2Proof

/-- The 21 instructions, with their operand bytes in encoding order (30_encoding.md R47, R57). -/
inductive Instr where
  /-- `NOP` (43_simple.md R103). -/
  | nop
  /-- `HALT` (43_simple.md R100). -/
  | halt
  /-- `RET` (42_stack_control.md R93). -/
  | ret
  /-- `PUSH Ra` (42_stack_control.md R90). -/
  | push (a : Byte)
  /-- `POP Ra` (42_stack_control.md R91). -/
  | pop (a : Byte)
  /-- `PRN Ra` (43_simple.md R102). -/
  | prn (a : Byte)
  /-- `CALL Ra` (42_stack_control.md R92). -/
  | call (a : Byte)
  /-- `JMP Ra` (42_stack_control.md R94). -/
  | jmp (a : Byte)
  /-- `JEQ Ra` (42_stack_control.md R95). -/
  | jeq (a : Byte)
  /-- `JNE Ra` (42_stack_control.md R96). -/
  | jne (a : Byte)
  /-- `LDI Ra,imm` (43_simple.md R101). -/
  | ldi (a imm : Byte)
  /-- `ADD Ra,Rb` (41_alu.md R76). -/
  | add (a b : Byte)
  /-- `MULT Ra,Rb` (41_alu.md R77). -/
  | mult (a b : Byte)
  /-- `MOD Ra,Rb` (41_alu.md R78). -/
  | mod (a b : Byte)
  /-- `CMP Ra,Rb` (41_alu.md R85). -/
  | cmp (a b : Byte)
  /-- `AND Ra,Rb` (41_alu.md R79). -/
  | and (a b : Byte)
  /-- `NOT Ra`, whose second operand byte is fetched and ignored (41_alu.md R82). -/
  | not (a b : Byte)
  /-- `OR Ra,Rb` (41_alu.md R80). -/
  | or (a b : Byte)
  /-- `XOR Ra,Rb` (41_alu.md R81). -/
  | xor (a b : Byte)
  /-- `SHL Ra,Rb` (41_alu.md R83). -/
  | shl (a b : Byte)
  /-- `SHR Ra,Rb` (41_alu.md R84). -/
  | shr (a b : Byte)
  deriving DecidableEq, Repr

end Sys2Proof
end

