-- ==== Sys2Proof/Decode.lean ====
section
/-! DEFINITION. The opcode table, the decoder and the encoder of GD-CORE (30_encoding.md R45 to R55). -/

namespace Sys2Proof

/-- The 21 mnemonics of the opcode table, without operands (30_encoding.md R50). -/
inductive Opcode where
  | nop | halt | ret | push | pop | prn | call | jmp | jeq | jne | ldi
  | add | mult | mod | cmp | and | not | or | xor | shl | shr
  deriving DecidableEq, Repr

/-- The opcode byte of each mnemonic: the column `binary` of 30_encoding.md R50 (the spec's decision D2). -/
def Opcode.byte : Opcode → Byte
  | .nop  => 0b00000000
  | .halt => 0b00000001
  | .ret  => 0b00010001
  | .push => 0b01000101
  | .pop  => 0b01000110
  | .prn  => 0b01000111
  | .call => 0b01010000
  | .jmp  => 0b01010100
  | .jeq  => 0b01010101
  | .jne  => 0b01010110
  | .ldi  => 0b10000010
  | .add  => 0b10100000
  | .mult => 0b10100010
  | .mod  => 0b10100100
  | .cmp  => 0b10100111
  | .and  => 0b10101000
  | .not  => 0b10101001
  | .or   => 0b10101010
  | .xor  => 0b10101011
  | .shl  => 0b10101100
  | .shr  => 0b10101101

/-- The mnemonics in the table's order (30_encoding.md R50). -/
def Opcode.all : List Opcode :=
  [.nop, .halt, .ret, .push, .pop, .prn, .call, .jmp, .jeq, .jne, .ldi,
   .add, .mult, .mod, .cmp, .and, .not, .or, .xor, .shl, .shr]

/-- Look a fetched byte up in the table by the whole byte (30_encoding.md R52); `none` is an unknown opcode (R53). -/
def Opcode.ofByte (b : Byte) : Option Opcode := Opcode.all.find? (fun o => o.byte == b)

/-- `nops(op) = op[7:6]`: the operand count coded in an opcode byte (30_encoding.md R45, R46); the
two top bits of a byte are its quotient by 64. -/
def nopsField (op : Byte) : Nat := op.toNat / 64

/-- `selfpos(op) = op[4]`: the handler sets `pc` itself (30_encoding.md R46). -/
def selfposField (op : Byte) : Bool := op.getLsbD 4

/-- The column `nops` of 30_encoding.md R50, which is the source's own operand count of each instruction. -/
def Opcode.nopsColumn : Opcode → Nat
  | .nop => 0
  | .halt => 0
  | .ret => 0
  | .push => 1
  | .pop => 1
  | .prn => 1
  | .call => 1
  | .jmp => 1
  | .jeq => 1
  | .jne => 1
  | .ldi => 2
  | .add => 2
  | .mult => 2
  | .mod => 2
  | .cmp => 2
  | .and => 2
  | .not => 2
  | .or => 2
  | .xor => 2
  | .shl => 2
  | .shr => 2

/-- The column `selfpos` of 30_encoding.md R50: CALL, RET, JMP, JEQ and JNE position `pc` themselves. -/
def Opcode.selfposColumn : Opcode → Bool
  | .nop => false
  | .halt => false
  | .ret => true
  | .push => false
  | .pop => false
  | .prn => false
  | .call => true
  | .jmp => true
  | .jeq => true
  | .jne => true
  | .ldi => false
  | .add => false
  | .mult => false
  | .mod => false
  | .cmp => false
  | .and => false
  | .not => false
  | .or => false
  | .xor => false
  | .shl => false
  | .shr => false

/-- The ALU set is given by enumeration, not by bit 5 (30_encoding.md R52). -/
def Opcode.isAlu : Opcode → Bool
  | .add => true
  | .mult => true
  | .mod => true
  | .cmp => true
  | .and => true
  | .not => true
  | .or => true
  | .xor => true
  | .shl => true
  | .shr => true
  | .nop => false
  | .halt => false
  | .ret => false
  | .push => false
  | .pop => false
  | .prn => false
  | .call => false
  | .jmp => false
  | .jeq => false
  | .jne => false
  | .ldi => false

/-- How many operand bytes the dispatcher reads: two for the ALU set, `nops(op)` otherwise (40_dispatcher.md R63,
R70). For the 21 opcodes the two agree. -/
def Opcode.need (o : Opcode) : Nat := if o.isAlu then 2 else nopsField o.byte

/-- The mnemonic of an instruction. -/
def Instr.opcode : Instr → Opcode
  | .nop => .nop
  | .halt => .halt
  | .ret => .ret
  | .push _ => .push
  | .pop _ => .pop
  | .prn _ => .prn
  | .call _ => .call
  | .jmp _ => .jmp
  | .jeq _ => .jeq
  | .jne _ => .jne
  | .ldi _ _ => .ldi
  | .add _ _ => .add
  | .mult _ _ => .mult
  | .mod _ _ => .mod
  | .cmp _ _ => .cmp
  | .and _ _ => .and
  | .not _ _ => .not
  | .or _ _ => .or
  | .xor _ _ => .xor
  | .shl _ _ => .shl
  | .shr _ _ => .shr

/-- Put the operand bytes `opA` and `opB` into the mnemonic's instruction (30_encoding.md R47). An operand that
the format does not have is not used. -/
def Opcode.instr (o : Opcode) (a b : Byte) : Instr :=
  match o with
  | .nop => .nop
  | .halt => .halt
  | .ret => .ret
  | .push => .push a
  | .pop => .pop a
  | .prn => .prn a
  | .call => .call a
  | .jmp => .jmp a
  | .jeq => .jeq a
  | .jne => .jne a
  | .ldi => .ldi a b
  | .add => .add a b
  | .mult => .mult a b
  | .mod => .mod a b
  | .cmp => .cmp a b
  | .and => .and a b
  | .not => .not a b
  | .or => .or a b
  | .xor => .xor a b
  | .shl => .shl a b
  | .shr => .shr a b

/-- Why bytes are not an instruction. -/
inductive DecodeError where
  /-- The first byte is none of the 21 opcodes (30_encoding.md R53). -/
  | unknownOpcode (op : Byte)
  /-- The byte at this offset from the opcode is missing (offset 0: there are no bytes at all). -/
  | missingByte (offset : Nat)
  deriving DecidableEq, Repr

/-- Take the operand bytes of a known opcode, in ascending order (40_dispatcher.md R63). -/
def decodeOperands (o : Opcode) (rest : List Byte) : Except DecodeError (Instr × List Byte) :=
  if o.need = 0 then .ok (o.instr 0 0, rest)
  else match rest with
    | [] => .error (.missingByte 1)
    | a :: rest1 =>
      if o.need = 1 then .ok (o.instr a 0, rest1)
      else match rest1 with
        | [] => .error (.missingByte 2)
        | b :: rest2 => .ok (o.instr a b, rest2)

/-- Decode one instruction from the front of a list of bytes, lowest address first, and give the bytes after it.
The opcode is looked up before any operand is read (40_dispatcher.md R62, R63). -/
def decode : List Byte → Except DecodeError (Instr × List Byte)
  | [] => .error (.missingByte 0)
  | op :: rest =>
    match Opcode.ofByte op with
    | none => .error (.unknownOpcode op)
    | some o => decodeOperands o rest

/-- The operand bytes of an instruction in encoding order (30_encoding.md R47). -/
def Instr.operandBytes : Instr → List Byte
  | .nop => []
  | .halt => []
  | .ret => []
  | .push a => [a]
  | .pop a => [a]
  | .prn a => [a]
  | .call a => [a]
  | .jmp a => [a]
  | .jeq a => [a]
  | .jne a => [a]
  | .ldi a imm => [a, imm]
  | .add a b => [a, b]
  | .mult a b => [a, b]
  | .mod a b => [a, b]
  | .cmp a b => [a, b]
  | .and a b => [a, b]
  | .not a b => [a, b]
  | .or a b => [a, b]
  | .xor a b => [a, b]
  | .shl a b => [a, b]
  | .shr a b => [a, b]

/-- The bytes of an instruction: the opcode at the lowest address, then its operands (30_encoding.md R47). -/
def encode (i : Instr) : List Byte := i.opcode.byte :: i.operandBytes

/-- Bytes `0`, `1`, `2` of a table word: bit 0 of the number is bit 0 of the first byte, and every bit at or above
`nbits` is zero. Three bytes are the longest instruction (30_encoding.md R45). -/
def tableWordBytes (nbits w : Nat) : List Byte :=
  let v := w % 2 ^ nbits
  [BitVec.ofNat 8 v, BitVec.ofNat 8 (v / 256), BitVec.ofNat 8 (v / 65536)]

/-- The instruction the decoder reads from a word numbered as spec/opcode_table.json numbers it. -/
def decodeTableWord (nbits w : Nat) : Option Instr :=
  match decode (tableWordBytes nbits w) with
  | .ok (i, _) => some i
  | .error _ => none

end Sys2Proof
end

