-- ==== Sys2Proof/Config.lean ====
section
/-! DEFINITION. The implementation parameters of GD-CORE (00_scope.md R4). The spec gives one configuration
and says that nothing in the machine is unpredictable (93_implementation_defined.md part 1), so there is no
free value here; the numeric opcodes `OPC` stand in Decode.lean. -/

namespace Sys2Proof.Config

/-- `MEM_SIZE`: addresses run from 0 to 255 (00_scope.md R4). -/
abbrev memSize : Nat := 256

/-- The highest address; an address computed from `pc` above it faults (20_memory.md R34). -/
abbrev topAddress : Nat := 255

/-- `NREGS` (00_scope.md R4). -/
def numRegs : Nat := 8

/-- `SP_INDEX`: register 7 is the stack pointer (00_scope.md R4, 10_state.md R13). -/
def spIndex : Fin 8 := 7

/-- `SP_RESET` (00_scope.md R4, 10_state.md R27). -/
def spReset : Word := 0xF4

/-- `PC_RESET` (00_scope.md R4): also the entry point that `run` sets (70_reset_and_hazards.md R133). -/
def pcReset : Word := 0x00

/-- `FL_RESET` (00_scope.md R4, the spec's decision D3). -/
def flReset : Word := 0x00

/-- What a memory cell reads as when the memory lists nothing for its address. DESIGN CHOICE, unsafe (log
entry 1): the spec leaves the contents open as the parameter `MEM0` (10_state.md R27, 92_eei_decisions.md D11). -/
def unlistedByte : Byte := 0x00

end Sys2Proof.Config
end

