-- ==== Sys2Proof/Machine/State.lean ====
section
/-! DEFINITION. The state of GD-CORE as plain data (10_state.md R10: "Nothing else is state") and its value after
reset (10_state.md R27). -/

namespace Sys2Proof.Machine

/-- The seven fault causes of 60_exceptions.md R111. Code 0, "none", is every status that is not `faulted`. -/
inductive FaultCause where
  /-- The byte at `pc` is no opcode (60_exceptions.md R112). -/
  | unknownOpcode
  /-- An opcode reached the ALU that it does not implement; never raised by a step (60_exceptions.md R113). -/
  | invalidAluOp
  /-- `MOD` with `x[b] = 0` (60_exceptions.md R114). -/
  | divideByZero
  /-- `AddressFault(OperandFetch)` (60_exceptions.md R115). -/
  | operandFetch
  /-- `AddressFault(ReturnAddress)` (60_exceptions.md R115). -/
  | returnAddress
  /-- `AddressFault(PcAdvance)` (60_exceptions.md R115). -/
  | pcAdvance
  /-- A register-index byte above 7 (60_exceptions.md R116). -/
  | regIndex
  deriving DecidableEq, Repr

/-- `STATUS` (10_state.md R10, R21): the cause and the offending value exist only in the state `Faulted`. -/
inductive Status where
  /-- Reset done, run not started. -/
  | idle
  /-- A run is in progress; only now is a step taken (40_dispatcher.md R60). -/
  | running
  /-- A `HALT` executed. -/
  | halted
  /-- A fatal condition was raised. -/
  | faulted (cause : FaultCause) (info : Info)
  deriving DecidableEq, Repr

/-- What `raise C(info)` carries (60_exceptions.md R118). -/
structure Raised where
  cause : FaultCause
  info : Info
  deriving DecidableEq, Repr

/-- Memory: address and byte, addresses strictly rising and below 256, no entry equal to what an unlisted address
reads as (`Memory.wf` in Ops.lean). -/
abbrev Memory := List Host.Cell

/-- The complete state of GD-CORE and its environment (10_state.md R10). -/
structure State where
  /-- The register file: eight cells, index 7 the stack pointer (10_state.md R11, R13). -/
  regs : Vector Word 8
  /-- The program counter (10_state.md R15). -/
  pc : Word
  /-- The flags register, bits 2..0 = L, G, E (10_state.md R18). -/
  fl : Word
  /-- The 256 memory cells, code and stack (10_state.md R24). -/
  mem : Memory
  /-- The status register (10_state.md R21). -/
  status : Status
  /-- What `PRN` has emitted since `run`, oldest first (10_state.md R25). -/
  out : List Word
  deriving DecidableEq, Repr

/-- Why the model itself stops. Every fatal condition of the spec is a NEXT state whose `status` is `faulted`
(60_exceptions.md R118, log entry 4), so there is no reason of this kind and the type has no constructor. -/
inductive Fault
  deriving DecidableEq, Repr

/-- Why the model has no meaning for an instruction. -/
inductive Refusal where
  /-- Raised by an arm of `exec` whose instruction has no meaning yet; safe. No arm does. -/
  | notModelled (mnemonic : String)
  deriving DecidableEq, Repr

/-- The machine right after reset (10_state.md R27): registers 0..6 zero, SP = 0xF4, `pc` = 0, `FL` = 0, `STATUS` =
Idle, `OUT` empty. Memory lists nothing: its contents are the host's to load (log entry 1). -/
def State.reset : State where
  regs := #v[0x00, 0x00, 0x00, 0x00, 0x00, 0x00, 0x00, Config.spReset]
  pc := Config.pcReset
  fl := Config.flReset
  mem := []
  status := .idle
  out := []

end Sys2Proof.Machine
end

