-- ==== Sys2Proof/Machine/Ops.lean ====
section
/-! DEFINITION. The named operations over memory, registers, output and status; taking a fault; the end of a
step; fetching an instruction's bytes. -/

namespace Sys2Proof.Machine

/-- The result type of a meaning. -/
abbrev Result := Host.Outcome State Fault Refusal

/-- A handler "either completes all its effects or raises a fatal condition with none of them" (40_dispatcher.md R65). -/
abbrev Handled := Except Raised State

/-! ### Memory (20_memory.md R30, R35) -/

/-- `M[a]`: the listed byte, or what an unlisted address reads as. -/
def Memory.read : Memory → Nat → Byte
  | [], _ => Config.unlistedByte
  | (k, v) :: rest, a => if k = a then v else Memory.read rest a

/-- Put an entry in front, unless it says what an unlisted address reads as anyway. -/
def Memory.entry (a : Nat) (v : Byte) (rest : Memory) : Memory :=
  if v = Config.unlistedByte then rest else (a, v) :: rest

/-- `M[a] <- v`, keeping the canonical form. -/
def Memory.write : Memory → Nat → Byte → Memory
  | [], a, v => Memory.entry a v []
  | (k, w) :: rest, a, v =>
    if a < k then Memory.entry a v ((k, w) :: rest)
    else if a = k then Memory.entry a v rest
    else (k, w) :: Memory.write rest a v

/-- The canonical form from address `lo` on: addresses strictly rising, all below 256, no entry that an unlisted
address reads as. -/
def Memory.wfFrom : Nat → Memory → Bool
  | _, [] => true
  | lo, (k, v) :: rest =>
    decide (lo ≤ k) && decide (k < Config.memSize) && decide (v ≠ Config.unlistedByte) && Memory.wfFrom (k + 1) rest

/-- The canonical form of a memory: equal memories are equal data. -/
def Memory.wf (m : Memory) : Bool := Memory.wfFrom 0 m

/-- Store bytes at ascending addresses from `a`; a byte whose address would be above 255 is not stored. -/
def Memory.storeBytes (m : Memory) (a : Nat) : List Byte → Memory
  | [] => m
  | b :: bs => Memory.storeBytes (if a < Config.memSize then Memory.write m a b else m) (a + 1) bs

/-- A whole 256-byte image `MEM0` as a memory (70_reset_and_hazards.md R132). -/
def Memory.ofImage (img : Vector Byte 256) : Memory := Memory.storeBytes [] 0 img.toList

/-- `MemRead(a, 1)`: an address is an 8-bit value, so it is always in range (20_memory.md R34). -/
def State.readByte (s : State) (a : Word) : Byte := Memory.read s.mem a.toNat

/-- `MemWrite(a, 1, v)` (20_memory.md R35). -/
def State.writeByte (s : State) (a : Word) (v : Byte) : State := { s with mem := Memory.write s.mem a.toNat v }

/-! ### Registers, output, status -/

/-- `x[i]` (10_state.md R11); no register is hardwired (10_state.md R12). -/
def State.x (s : State) (i : Fin 8) : Word := s.regs[i]

/-- `x[i] <- v` (10_state.md R11). -/
def State.setX (s : State) (i : Fin 8) (v : Word) : State := { s with regs := s.regs.set i v }

/-- `SP`, the alias of `x[7]` (10_state.md R13). -/
def State.sp (s : State) : Word := s.x Config.spIndex

/-- `SP <- v`. -/
def State.setSp (s : State) (v : Word) : State := s.setX Config.spIndex v

/-- `pc <- t`. -/
def State.setPc (s : State) (t : Word) : State := { s with pc := t }

/-- `FL <- v` (00_scope.md section 5). -/
def State.setFl (s : State) (v : Word) : State := { s with fl := v }

/-- `Out(v)`: append to the output sequence (10_state.md R25). -/
def State.emit (s : State) (v : Word) : State := { s with out := s.out ++ [v] }

/-- `halt`: `STATUS <- Halted`, `pc` unchanged (40_dispatcher.md R68). -/
def State.halt (s : State) : State := { s with status := .halted }

/-- Taking a fault, the one exception entry of the machine: the status register records the cause and the offending
value and nothing else changes (60_exceptions.md R118). There is no return from it (60_exceptions.md R119); only
the host's `reset` leaves it. -/
def State.raise (s : State) (r : Raised) : State := { s with status := .faulted r.cause r.info }

/-! ### The status at the ports (00_scope.md R8, 10_state.md R21) -/

/-- The cause's code (60_exceptions.md R111, the spec's decision D9). -/
def FaultCause.code : FaultCause → BitVec 3
  | .unknownOpcode => 1
  | .invalidAluOp => 2
  | .divideByZero => 3
  | .operandFetch => 4
  | .returnAddress => 5
  | .pcAdvance => 6
  | .regIndex => 7

/-- The port `status[1:0]` (10_state.md R21). -/
def Status.stateField : Status → BitVec 2
  | .idle => 0
  | .running => 1
  | .halted => 2
  | .faulted _ _ => 3

/-- The port `fault_cause[2:0]`: 0 unless faulted (60_exceptions.md R111). -/
def Status.causeField : Status → BitVec 3
  | .idle => 0
  | .running => 0
  | .halted => 0
  | .faulted c _ => c.code

/-- The port `fault_info[8:0]`: 0 unless faulted (60_exceptions.md R111). -/
def Status.infoField : Status → Info
  | .idle => 0
  | .running => 0
  | .halted => 0
  | .faulted _ info => info

/-- What the host's process reports when the run has ended: 0 after `HALT`, 1 after any fault (60_exceptions.md
R128, the spec's decision D17). -/
def Status.exitStatus : Status → Option Nat
  | .idle => none
  | .running => none
  | .halted => some 0
  | .faulted _ _ => some 1

/-! ### The program counter at the end of a step (40_dispatcher.md R66, R67) -/

/-- An address computed from `pc`, as an exact integer (20_memory.md R34). -/
abbrev State.pcPlus (s : State) (k : Nat) : Nat := s.pc.toNat + k

/-- A value of the fault register `STATUS.info` from an exact address. -/
def infoOfNat (n : Nat) : Info := BitVec.ofNat 9 n

/-- A value of the fault register `STATUS.info` from an operand or opcode byte. -/
def infoOfByte (b : Byte) : Info := b.setWidth 9

/-- `pc <- pc + k`, or `AddressFault(PcAdvance)` if that is above 255; whatever the state already holds stays. -/
def State.advance (s : State) (k : Nat) : State :=
  if s.pcPlus k ≤ Config.topAddress then s.setPc (narrow (s.pcPlus k))
  else s.raise ⟨.pcAdvance, infoOfNat (s.pcPlus k)⟩

/-- The end of a step that began in `s`, after the handler of opcode `o` answered: a fatal condition leaves the
state as it was but for `STATUS` (40_dispatcher.md R65, 60_exceptions.md R118); otherwise `pc` advances by `nops + 1`
when bit 4 of the opcode is 0 and is left alone when it is 1 (40_dispatcher.md R66, R67). -/
def finish (o : Opcode) (s : State) (h : Handled) : Result :=
  match h with
  | .error r => .next (s.raise r)
  | .ok t => .next (if selfposField o.byte then t else t.advance (nopsField o.byte + 1))

/-! ### Fetch (40_dispatcher.md R61, R63) -/

/-- The bytes the dispatcher can reach from `pc`: `M[pc]`, and `M[pc+1]`, `M[pc+2]` as far as the address is at most
255. Nothing is read above 255 (20_memory.md R34). -/
def State.fetchBytes (s : State) : List Byte :=
  Memory.read s.mem s.pc.toNat ::
    (if s.pcPlus 1 ≤ Config.topAddress then
      Memory.read s.mem (s.pcPlus 1) ::
        (if s.pcPlus 2 ≤ Config.topAddress then [Memory.read s.mem (s.pcPlus 2)] else [])
     else [])

/-- The fault of a fetch that gives no instruction: the unknown byte, or the first operand address above 255
(40_dispatcher.md R62, R63). -/
def State.fetchFault (s : State) (e : DecodeError) : Raised :=
  match e with
  | .unknownOpcode op => ⟨.unknownOpcode, infoOfByte op⟩
  | .missingByte k => ⟨.operandFetch, infoOfNat (s.pcPlus k)⟩

/-- What happens at a step while `STATUS` is not Running: "no step is taken; nothing changes" (95_test_vectors.md
L4, 10_state.md R21; log entry 2). -/
def notRunning (s : State) : Result := .next s

end Sys2Proof.Machine
end

