-- ==== Sys2Proof/Machine/Flags.lean ====
section
/-! DEFINITION. The flags register: what a compare sets and what the conditional jumps read (10_state.md R18, R19). -/

namespace Sys2Proof.Machine

/-- Bit 0, `E`: equal (10_state.md R18). -/
def flagE : Word := 0b00000001

/-- Bit 1, `G`: greater than (10_state.md R18). -/
def flagG : Word := 0b00000010

/-- Bit 2, `L`: less than (10_state.md R18). -/
def flagL : Word := 0b00000100

/-- The whole of `FL` after a compare of two unsigned values (41_alu.md R85). -/
def compareFlags (va vb : Word) : Word :=
  if va = vb then flagE else if va.toNat > vb.toNat then flagG else flagL

/-- The flags hold the equal-bit-only pattern: the whole register is compared (10_state.md R19, 42_stack_control.md R95). -/
def State.flagsEqual (s : State) : Bool := s.fl == flagE

end Sys2Proof.Machine
end

