-- ==== Sys2Proof/Machine/Operands.lean ====
section
/-! DEFINITION. The operand forms: a register-index byte, checked when it is used (40_dispatcher.md R64). -/

namespace Sys2Proof.Machine

/-- Use an operand byte as a register index: above 7 it raises `RegIndexFault(byte)`; the upper five bits are not
masked (30_encoding.md R48, 60_exceptions.md R116). -/
def withReg (a : Byte) (k : Fin 8 → Handled) : Handled :=
  if h : a.toNat < 8 then k ⟨a.toNat, h⟩ else .error ⟨.regIndex, infoOfByte a⟩

/-- Use two operand bytes as register indices: `a` is checked first, then `b` (40_dispatcher.md R64). -/
def withRegs (a b : Byte) (k : Fin 8 → Fin 8 → Handled) : Handled :=
  withReg a (fun i => withReg b (fun j => k i j))

/-- An operation of format `RR` that writes its first register: `x[a] <- f(x[a], x[b]) mod 256`, both operands read
before the result is written (41_alu.md R75, R86). -/
def writeFromBoth (f : Nat → Nat → Nat) (a b : Byte) (s : State) : Handled :=
  withRegs a b (fun i j => .ok (s.setX i (narrow (f (s.x i).toNat (s.x j).toNat))))

/-- The operand byte that stands for register `i` in an encoding (30_encoding.md R48). -/
def regByte (i : Fin 8) : Byte := BitVec.ofNat 8 i.val

end Sys2Proof.Machine
end

