-- ==== Sys2Proof/Machine/Alu.lean ====
section
/-! DEFINITION. The ALU, a sub-dispatcher keyed by the opcode byte (41_alu.md R75), its ten operations, and the
meaning of the ten ALU instructions. -/

namespace Sys2Proof.Machine

/-- `x[a] <- (x[a] + x[b]) mod 256` (41_alu.md R76). -/
def aluAdd (a b : Byte) (s : State) : Handled := writeFromBoth (fun x y => x + y) a b s

/-- `x[a] <- (x[a] * x[b]) mod 256` (41_alu.md R77). -/
def aluMult (a b : Byte) (s : State) : Handled := writeFromBoth (fun x y => x * y) a b s

/-- `x[a] <- x[a] mod x[b]`, or `DivideByZero(b)` (41_alu.md R78, 60_exceptions.md R114). -/
def aluMod (a b : Byte) (s : State) : Handled :=
  withRegs a b (fun i j =>
    if s.x j = 0 then .error ⟨.divideByZero, infoOfByte b⟩
    else .ok (s.setX i (narrow ((s.x i).toNat % (s.x j).toNat))))

/-- The whole of `FL` is overwritten, no register is (41_alu.md R85). -/
def aluCmp (a b : Byte) (s : State) : Handled :=
  withRegs a b (fun i j => .ok (s.setFl (compareFlags (s.x i) (s.x j))))

/-- `x[a] <- x[a] & x[b]` (41_alu.md R79). -/
def aluAnd (a b : Byte) (s : State) : Handled := writeFromBoth (fun x y => x &&& y) a b s

/-- `x[a] <- ~x[a]`, that is `255 - x[a]`; `b` is neither used nor checked (41_alu.md R82). -/
def aluNot (a _b : Byte) (s : State) : Handled :=
  withReg a (fun i => .ok (s.setX i (~~~ (s.x i))))

/-- `x[a] <- x[a] | x[b]` (41_alu.md R80). -/
def aluOr (a b : Byte) (s : State) : Handled := writeFromBoth (fun x y => x ||| y) a b s

/-- `x[a] <- x[a] ^ x[b]` (41_alu.md R81). -/
def aluXor (a b : Byte) (s : State) : Handled := writeFromBoth (fun x y => x ^^^ y) a b s

/-- `x[a] <- (x[a] * 2^x[b]) mod 256`, the whole amount 0..255 (41_alu.md R83). -/
def aluShl (a b : Byte) (s : State) : Handled := writeFromBoth (fun x y => x * 2 ^ y) a b s

/-- `x[a] <- floor(x[a] / 2^x[b])`, the whole amount 0..255 (41_alu.md R84). -/
def aluShr (a b : Byte) (s : State) : Handled := writeFromBoth (fun x y => x / 2 ^ y) a b s

/-- `execute(opcode, regA_index, regB_index)`: total on bytes. A byte outside the ALU set is the fatal condition
`InvalidAluOp` (41_alu.md R75, 60_exceptions.md R113), which the dispatcher never reaches (41_alu.md R87). -/
def aluExecute (op a b : Byte) (s : State) : Handled :=
  match Opcode.ofByte op with
  | some .add => aluAdd a b s
  | some .mult => aluMult a b s
  | some .mod => aluMod a b s
  | some .cmp => aluCmp a b s
  | some .and => aluAnd a b s
  | some .not => aluNot a b s
  | some .or => aluOr a b s
  | some .xor => aluXor a b s
  | some .shl => aluShl a b s
  | some .shr => aluShr a b s
  | _ => .error ⟨.invalidAluOp, infoOfByte op⟩

/-- ADD (41_alu.md R76). -/
def execAdd (a b : Byte) (s : State) : Result := finish .add s (aluExecute Opcode.add.byte a b s)

/-- MULT (41_alu.md R77). -/
def execMult (a b : Byte) (s : State) : Result := finish .mult s (aluExecute Opcode.mult.byte a b s)

/-- MOD (41_alu.md R78). -/
def execMod (a b : Byte) (s : State) : Result := finish .mod s (aluExecute Opcode.mod.byte a b s)

/-- CMP (41_alu.md R85). -/
def execCmp (a b : Byte) (s : State) : Result := finish .cmp s (aluExecute Opcode.cmp.byte a b s)

/-- AND (41_alu.md R79). -/
def execAnd (a b : Byte) (s : State) : Result := finish .and s (aluExecute Opcode.and.byte a b s)

/-- NOT (41_alu.md R82). -/
def execNot (a b : Byte) (s : State) : Result := finish .not s (aluExecute Opcode.not.byte a b s)

/-- OR (41_alu.md R80). -/
def execOr (a b : Byte) (s : State) : Result := finish .or s (aluExecute Opcode.or.byte a b s)

/-- XOR (41_alu.md R81). -/
def execXor (a b : Byte) (s : State) : Result := finish .xor s (aluExecute Opcode.xor.byte a b s)

/-- SHL (41_alu.md R83). -/
def execShl (a b : Byte) (s : State) : Result := finish .shl s (aluExecute Opcode.shl.byte a b s)

/-- SHR (41_alu.md R84). -/
def execShr (a b : Byte) (s : State) : Result := finish .shr s (aluExecute Opcode.shr.byte a b s)

end Sys2Proof.Machine
end

