-- ==== Sys2Proof/Machine/Simple.lean ====
section
/-! DEFINITION. The simple instructions HALT, LDI, PRN, NOP (43_simple.md). -/

namespace Sys2Proof.Machine

/-- The handler of LDI: the immediate is used as it is (43_simple.md R101). -/
def handleLdi (a imm : Byte) (s : State) : Handled := withReg a (fun i => .ok (s.setX i imm))

/-- The handler of PRN (43_simple.md R102). -/
def handlePrn (a : Byte) (s : State) : Handled := withReg a (fun i => .ok (s.emit (s.x i)))

/-- HALT: the loop exits before any auto-advance, although bit 4 of the opcode is 0 (43_simple.md R100, 90_conflicts.md C7). -/
def execHalt (s : State) : Result := .next s.halt

/-- LDI (43_simple.md R101). -/
def execLdi (a imm : Byte) (s : State) : Result := finish .ldi s (handleLdi a imm s)

/-- PRN (43_simple.md R102). -/
def execPrn (a : Byte) (s : State) : Result := finish .prn s (handlePrn a s)

/-- NOP: no effect, then the dispatcher's advance (43_simple.md R103). -/
def execNop (s : State) : Result := finish .nop s (.ok s)

end Sys2Proof.Machine
end

