-- ==== Sys2Proof/Machine/StackControl.lean ====
section
/-! DEFINITION. The stack and control-flow instructions PUSH, POP, CALL, RET, JMP, JEQ, JNE (42_stack_control.md). -/

namespace Sys2Proof.Machine

/-- `SP <- (SP - 1) mod 256`: wraps, never faults (42_stack_control.md R97, the spec's decision D5). -/
def State.decSp (s : State) : State := s.setSp (s.sp - 1)

/-- `SP <- (SP + 1) mod 256`: wraps, never faults (42_stack_control.md R97, the spec's decision D5). -/
def State.incSp (s : State) : State := s.setSp (s.sp + 1)

/-- Write a byte at `SP`, after `SP` has been decremented. -/
def State.storeAtSp (s : State) (v : Byte) : State := s.writeByte s.sp v

/-- `PC = reg[regIndex]`: the jump of JMP, and of JEQ and JNE when taken (42_stack_control.md R94). -/
def jumpTo (a : Byte) (s : State) : Handled := withReg a (fun i => .ok (s.setPc (s.x i)))

/-- A JEQ or JNE that is not taken goes to `pc + 2`; above 255 that is `AddressFault(PcAdvance)` (40_dispatcher.md
R67, 42_stack_control.md R95). The operand byte is not checked (40_dispatcher.md R64). -/
def fallThrough (s : State) : Handled :=
  if s.pcPlus 2 ≤ Config.topAddress then .ok (s.setPc (narrow (s.pcPlus 2)))
  else .error ⟨.pcAdvance, infoOfNat (s.pcPlus 2)⟩

/-- The handler of PUSH: `x[a]` is read after SP was decremented (42_stack_control.md R90). -/
def handlePush (a : Byte) (s : State) : Handled :=
  withReg a (fun i => .ok (s.decSp.storeAtSp (s.decSp.x i)))

/-- The handler of POP: `x[a]` is loaded first, then SP is incremented (42_stack_control.md R91). -/
def handlePop (a : Byte) (s : State) : Handled :=
  withReg a (fun i => .ok (s.setX i (s.readByte s.sp)).incSp)

/-- The handler of CALL: the return address `pc + 2` must be at most 255; `x[a]` is read after SP was decremented
(42_stack_control.md R92). -/
def handleCall (a : Byte) (s : State) : Handled :=
  withReg a (fun i =>
    if s.pcPlus 2 ≤ Config.topAddress then
      .ok ((s.decSp.storeAtSp (narrow (s.pcPlus 2))).setPc (s.decSp.x i))
    else .error ⟨.returnAddress, infoOfNat (s.pcPlus 2)⟩)

/-- The handler of RET (42_stack_control.md R93). -/
def handleRet (s : State) : Handled := .ok (s.setPc (s.readByte s.sp)).incSp

/-- PUSH (42_stack_control.md R90). -/
def execPush (a : Byte) (s : State) : Result := finish .push s (handlePush a s)

/-- POP (42_stack_control.md R91). -/
def execPop (a : Byte) (s : State) : Result := finish .pop s (handlePop a s)

/-- CALL (42_stack_control.md R92). -/
def execCall (a : Byte) (s : State) : Result := finish .call s (handleCall a s)

/-- RET (42_stack_control.md R93). -/
def execRet (s : State) : Result := finish .ret s (handleRet s)

/-- JMP (42_stack_control.md R94). -/
def execJmp (a : Byte) (s : State) : Result := finish .jmp s (jumpTo a s)

/-- JEQ: taken when `FL` is the equal-bit-only pattern (42_stack_control.md R95). -/
def execJeq (a : Byte) (s : State) : Result :=
  finish .jeq s (if s.flagsEqual then jumpTo a s else fallThrough s)

/-- JNE: taken when `FL` is not the equal-bit-only pattern (42_stack_control.md R96). -/
def execJne (a : Byte) (s : State) : Result :=
  finish .jne s (if s.flagsEqual then fallThrough s else jumpTo a s)

end Sys2Proof.Machine
end

