-- ==== Sys2Proof/Machine/Step.lean ====
section
/-! DEFINITION. One step: fetch, decode, operand fetch, execute, `pc` update (40_dispatcher.md R60, R70). -/

namespace Sys2Proof.Machine

/-- One iteration of the loop, taken only when `STATUS = Running` (40_dispatcher.md R60, R70). Every fatal condition
is a next state (60_exceptions.md R118). -/
def step (s : State) : Host.Outcome State Fault Refusal :=
  match s.status with
  | .running =>
    match decode s.fetchBytes with
    | .ok (i, _) => exec i s
    | .error e => .next (s.raise (s.fetchFault e))
  | .idle => notRunning s
  | .halted => notRunning s
  | .faulted _ _ => notRunning s

/-- The state with a table word stored where the next step fetches, and a run in progress, so that the very next
step runs that word. It stands for the host's load of a program and its `run` (log entry 3). -/
def State.withFetchWord (s : State) (nbits w : Nat) : State :=
  { s with mem := Memory.storeBytes s.mem s.pc.toNat (tableWordBytes nbits w), status := .running }

end Sys2Proof.Machine
end

