-- ==== Sys2Proof/Machine/Lifecycle.lean ====
section
/-! DEFINITION. What the host can do to the core: `reset`, memory writes while Idle, `run` (00_scope.md R6,
70_reset_and_hazards.md R130 to R133). -/

namespace Sys2Proof.Machine

/-- The three actions of the host (00_scope.md R6). -/
inductive HostAction where
  /-- `reset`; `mem0` is what memory holds afterwards, which the core does not define (70_reset_and_hazards.md R130,
  92_eei_decisions.md D11). -/
  | reset (mem0 : Vector Byte 256)
  /-- Write one memory cell. -/
  | write (a : Word) (v : Byte)
  /-- `run`. -/
  | run
  deriving DecidableEq, Repr

/-- `reset`, from any state: every piece of core state has its reset value, memory holds the image `mem0`
(10_state.md R27, 70_reset_and_hazards.md R130). -/
def resetWith (mem0 : Vector Byte 256) : State := { State.reset with mem := Memory.ofImage mem0 }

/-- `run`: from Idle `pc <- 0`, `OUT <- empty`, `STATUS <- Running`; ignored in any other state (40_dispatcher.md
R71, 10_state.md R21). -/
def State.run (s : State) : State :=
  match s.status with
  | .idle => { s with pc := Config.pcReset, out := [], status := .running }
  | .running => s
  | .halted => s
  | .faulted _ _ => s

/-- A host action; `none` when the host may not take it: memory is written only while Idle (00_scope.md R6, log
entry 5). -/
def State.host (s : State) (act : HostAction) : Option State :=
  match act with
  | .reset mem0 => some (resetWith mem0)
  | .write a v => if s.status = .idle then some (s.writeByte a v) else none
  | .run => some s.run

/-- The loader's contract: while Idle, byte `k` of the program goes to `M[k]`; a program of more than 256 bytes is
refused (70_reset_and_hazards.md R132, 92_eei_decisions.md D25; log entry 12). -/
def State.load (s : State) (p : List Byte) : Option State :=
  if s.status = .idle ∧ p.length ≤ Config.memSize then some { s with mem := Memory.storeBytes s.mem 0 p } else none

end Sys2Proof.Machine
end

