-- ==== Sys2Proof/WellFormed.lean ====
section
/-! DEFINITION. Which instructions are well formed: every operand byte that the instruction uses as a register
index names one of the eight registers (30_encoding.md R48). An ill-formed instruction still decodes and runs:
it raises `RegIndexFault` when the byte is used (40_dispatcher.md R64, log entry 10). -/

namespace Sys2Proof

/-- A register-index byte must be in 0..7 (30_encoding.md R48). -/
def isRegIndex (b : Byte) : Bool := decide (b.toNat < 8)

/-- The operands of an instruction that are register indices are in range. `LDI`'s immediate and `NOT`'s second
byte are not register indices and are not checked (40_dispatcher.md R64). -/
def Instr.wellFormed : Instr → Bool
  | .nop => true
  | .halt => true
  | .ret => true
  | .push a => isRegIndex a
  | .pop a => isRegIndex a
  | .prn a => isRegIndex a
  | .call a => isRegIndex a
  | .jmp a => isRegIndex a
  | .jeq a => isRegIndex a
  | .jne a => isRegIndex a
  | .ldi a _ => isRegIndex a
  | .add a b => isRegIndex a && isRegIndex b
  | .mult a b => isRegIndex a && isRegIndex b
  | .mod a b => isRegIndex a && isRegIndex b
  | .cmp a b => isRegIndex a && isRegIndex b
  | .and a b => isRegIndex a && isRegIndex b
  | .not a _ => isRegIndex a
  | .or a b => isRegIndex a && isRegIndex b
  | .xor a b => isRegIndex a && isRegIndex b
  | .shl a b => isRegIndex a && isRegIndex b
  | .shr a b => isRegIndex a && isRegIndex b

end Sys2Proof
end

