-- ==== Sys2Proof/Safety.lean ====
section
/-! DEFINITION. What counts as a safe run, in the terms the statements use: the invariant every step keeps, and the
states that the host and the core can reach. -/

namespace Sys2Proof.Machine

/-- "A model must treat `Faulted` as gone wrong, distinct from `Halted`" (60_exceptions.md R118). -/
def State.GoneWrong (s : State) : Prop := ∃ c info, s.status = .faulted c info

/-- The values `FL` can ever hold (10_state.md R20). -/
def legalFlags (fl : Word) : Prop := fl = 0x00 ∨ fl = 0x01 ∨ fl = 0x02 ∨ fl = 0x04

/-- What `STATUS.info` may hold beside each cause (60_exceptions.md R111): an unknown opcode byte, never an
`InvalidAluOp` (R113), a register index 0..7, the address 256, or an operand byte 8..255. -/
def legalFault : FaultCause → Info → Prop
  | .unknownOpcode, info => ∃ b : Byte, Opcode.ofByte b = none ∧ info = infoOfByte b
  | .invalidAluOp, _ => False
  | .divideByZero, info => info.toNat ≤ 7
  | .operandFetch, info => info.toNat = 256
  | .returnAddress, info => info.toNat = 256
  | .pcAdvance, info => info.toNat = 256
  | .regIndex, info => 8 ≤ info.toNat ∧ info.toNat ≤ 255

/-- What holds of the rest of the state in each status: nothing has been emitted and `pc` is 0 while Idle
(10_state.md R27); a fault's info fits its cause. -/
def legalStatus (s : State) : Prop :=
  match s.status with
  | .idle => s.pc = 0 ∧ s.out = [] ∧ s.fl = 0
  | .running => True
  | .halted => True
  | .faulted c info => legalFault c info

/-- The invariant of the machine: memory in its canonical form, legal flags, a legal status. -/
structure State.Inv (s : State) : Prop where
  mem_wf : Memory.wf s.mem = true
  flags : legalFlags s.fl
  status : legalStatus s

/-- The states that host actions and steps reach from reset, for any memory image (70_reset_and_hazards.md R131). -/
inductive Reachable : State → Prop where
  | reset (mem0 : Vector Byte 256) : Reachable (resetWith mem0)
  | host {s t : State} (act : HostAction) : Reachable s → s.host act = some t → Reachable t
  | step {s t : State} : Reachable s → Machine.step s = .next t → Reachable t

/-! ### The words the statements are written in -/

/-- Every byte of memory reads as before. -/
def State.SameMemory (s t : State) : Prop := ∀ c : Word, t.readByte c = s.readByte c

/-- Every byte of memory but the one at `a` reads as before. -/
def State.SameMemoryExcept (s t : State) (a : Word) : Prop := ∀ c : Word, c ≠ a → t.readByte c = s.readByte c

/-- Every register whose index is none of `ds` holds what it held. -/
def State.SameRegsExcept (s t : State) (ds : List Nat) : Prop := ∀ k : Fin 8, k.val ∉ ds → t.x k = s.x k

/-- `STATUS` is what it was, or a fault was raised: no other status is written. -/
def State.SameStatusOrFaulted (s t : State) : Prop := t.status = s.status ∨ t.GoneWrong

/-- Format `Z`: the opcode byte alone (30_encoding.md R47). -/
def FormatZ (op : Byte) (i : Instr) : Prop := ∀ rest : List Byte, decode (op :: rest) = .ok (i, rest)

/-- Format `R`: the opcode byte, then `a` (30_encoding.md R47). -/
def FormatR (op : Byte) (f : Byte → Instr) : Prop :=
  ∀ (a : Byte) (rest : List Byte), decode (op :: a :: rest) = .ok (f a, rest)

/-- Formats `RR` and `RI`: the opcode byte, then `a`, then `b` or `imm` (30_encoding.md R47). -/
def FormatRR (op : Byte) (f : Byte → Byte → Instr) : Prop :=
  ∀ (a b : Byte) (rest : List Byte), decode (op :: a :: b :: rest) = .ok (f a b, rest)

/-- A byte above 7 in the one register operand is a precise `RegIndexFault` (40_dispatcher.md R64). -/
def ChecksRegister (f : Byte → Instr) : Prop :=
  ∀ (s : State) (a : Byte), 7 < a.toNat →
    exec (f a) s = .next { s with status := .faulted .regIndex (a.setWidth 9) }

/-- Register operands are checked `a` first, then `b`, before any effect (40_dispatcher.md R64). -/
def ChecksBothRegisters (f : Byte → Byte → Instr) : Prop :=
  ∀ (s : State) (a b : Byte),
    (7 < a.toNat → exec (f a b) s = .next { s with status := .faulted .regIndex (a.setWidth 9) }) ∧
    (a.toNat ≤ 7 → 7 < b.toNat → exec (f a b) s = .next { s with status := .faulted .regIndex (b.setWidth 9) })

/-- The instruction completes from state `s` in a state that differs from `s` only in register `i`, which holds
`v`, and in `pc`, which is three further. -/
def WritesRegisterOnly (ins : Instr) (s : State) (i : Fin 8) (v : Nat) : Prop :=
  ∃ t, exec ins s = .next t ∧ (t.x i).toNat = v ∧ t.pc.toNat = s.pc.toNat + 3 ∧
    s.SameRegsExcept t [i.val] ∧ s.SameMemory t ∧ t.fl = s.fl ∧ t.out = s.out ∧ t.status = s.status

/-- The rule of an ALU instruction with opcode byte `op` that computes `x[a] <- g(x[a], x[b])` (41_alu.md R75, R86). -/
def ComputesFromBoth (op : Byte) (f : Byte → Byte → Instr) (g : Nat → Nat → Nat) : Prop :=
  FormatRR op f ∧
  (∀ (s : State) (i j : Fin 8), s.pc.toNat ≤ 252 →
    WritesRegisterOnly (f (regByte i) (regByte j)) s i (g (s.x i).toNat (s.x j).toNat)) ∧
  ChecksBothRegisters f

/-- `pc` after a step that did not fault, by instruction (10_state.md R16; CALL's target is read after `SP` was
decremented, 42_stack_control.md R92). -/
def nextPc (i : Instr) (s : State) : Nat :=
  match i with
  | .nop => s.pc.toNat + 1
  | .halt => s.pc.toNat
  | .ret => (s.readByte s.sp).toNat
  | .push _ => s.pc.toNat + 2
  | .pop _ => s.pc.toNat + 2
  | .prn _ => s.pc.toNat + 2
  | .call a => if a = 7 then (s.sp - 1).toNat else (s.regs.toList.getD a.toNat 0).toNat
  | .jmp a => (s.regs.toList.getD a.toNat 0).toNat
  | .jeq a => if s.fl = 0x01 then (s.regs.toList.getD a.toNat 0).toNat else s.pc.toNat + 2
  | .jne a => if s.fl = 0x01 then s.pc.toNat + 2 else (s.regs.toList.getD a.toNat 0).toNat
  | .ldi _ _ => s.pc.toNat + 3
  | .add _ _ => s.pc.toNat + 3
  | .mult _ _ => s.pc.toNat + 3
  | .mod _ _ => s.pc.toNat + 3
  | .cmp _ _ => s.pc.toNat + 3
  | .and _ _ => s.pc.toNat + 3
  | .not _ _ => s.pc.toNat + 3
  | .or _ _ => s.pc.toNat + 3
  | .xor _ _ => s.pc.toNat + 3
  | .shl _ _ => s.pc.toNat + 3
  | .shr _ _ => s.pc.toNat + 3

end Sys2Proof.Machine
end

