-- ==== Sys2Proof/Certificates/Slice0/Obligations.lean ====
section
/-! DEFINITION. The statements for the provers, from the numbered rules of spec/. A statement has basis 'stated' in
OBLIGATIONS.json where it says the whole of the rules it cites; where a clause rests on a point that its rule marks as
the spec's own inference or decision, or on a choice of the model, the docstring says so and the basis is 'derived'. The
opcode bytes in the `Format…` clauses are those of each instruction's rule and of the table 30_encoding.md R50, whose
numbers are the spec's decision D2. -/

open Sys2Proof Sys2Proof.Machine

/-! ### Encoding -/

/-- Words written out bit by bit from the formats of 30_encoding.md section 1 and the bytes of its opcode table
(the numbers are the spec's decision D2) decode to the instructions they stand for, and the bytes after an
instruction are left. -/
def Obligations.WrittenWordsDecode : Prop :=
  decode [0b00000000] = .ok (.nop, []) ∧
  decode [0b00000001, 0x55] = .ok (.halt, [0x55]) ∧
  decode [0b00010001] = .ok (.ret, []) ∧
  decode [0b01000101, 0b00000111] = .ok (.push 7, []) ∧
  decode [0b01000111, 0b00000000, 0x01] = .ok (.prn 0, [0x01]) ∧
  decode [0b01010000, 0b00000001] = .ok (.call 1, []) ∧
  decode [0b01010110, 0b00000010] = .ok (.jne 2, []) ∧
  decode [0b10000010, 0b00000001, 0b00001001] = .ok (.ldi 1 9, []) ∧
  decode [0b10100010, 0b00000000, 0b00000001] = .ok (.mult 0 1, []) ∧
  decode [0b10101001, 0b00000000, 0b11111111] = .ok (.not 0 255, []) ∧
  decode [0b10101101, 0b00000110, 0b00000011] = .ok (.shr 6 3, []) ∧
  decode [0b01101001, 0b00000000] = .error (.unknownOpcode 0x69)

/-- Decoding the encoding of any instruction, whatever its operand bytes and whatever bytes follow, gives the
instruction back and leaves what follows. -/
def Obligations.DecodeGivesBackEncodedInstruction : Prop :=
  ∀ (i : Instr) (rest : List Byte), decode (encode i ++ rest) = .ok (i, rest)

/-- Bytes that decode are the encoding of what they decode to, followed by the bytes left: each word has one meaning. -/
def Obligations.DecodedBytesAreTheEncoding : Prop :=
  ∀ (bs rest : List Byte) (i : Instr), decode bs = .ok (i, rest) → bs = encode i ++ rest

/-- The opcode table meets the constraints that 30_encoding.md R51 derives: 21 distinct bytes, operand count in bits
7..6, self-positioning class in bit 4, 0xFF unassigned, one operand for JMP, JEQ and JNE; and 235 bytes are unknown
(30_encoding.md R53; that these include every byte with count 3 is the spec's decision D20). -/
def Obligations.OpcodeTableMeetsItsConstraints : Prop :=
  Opcode.all.length = 21 ∧ (∀ o : Opcode, o ∈ Opcode.all) ∧ (∀ o p : Opcode, o.byte = p.byte → o = p) ∧
  (∀ o : Opcode, (o.byte >>> 6).toNat = o.nopsColumn) ∧ (∀ o : Opcode, o.byte.getLsbD 4 = o.selfposColumn) ∧
  Opcode.ofByte 0xFF = none ∧
  Opcode.jmp.nopsColumn = 1 ∧ Opcode.jeq.nopsColumn = 1 ∧ Opcode.jne.nopsColumn = 1 ∧
  ((List.range 256).filter (fun n => (Opcode.ofByte (BitVec.ofNat 8 n)).isNone)).length = 235 ∧
  (∀ n ∈ List.range 256, 192 ≤ n → Opcode.ofByte (BitVec.ofNat 8 n) = none)

/-! ### The step -/

/-- When the bytes the dispatcher reaches from `pc` decode, a step of a running core is `exec` of the instruction at
that very state: the whole step, the `pc` update included, is the instruction's meaning. -/
def Obligations.StepRunsTheDecodedInstruction : Prop :=
  ∀ (s : State) (i : Instr) (rest : List Byte),
    s.status = .running → decode s.fetchBytes = .ok (i, rest) → step s = exec i s

/-- The same, from memory: when a running core has the encoding of `i` in the cells from `pc` on, none of them above
address 255, a step is `exec i`. -/
def Obligations.StepRunsTheBytesAtPc : Prop :=
  ∀ (s : State) (i : Instr), s.status = .running → s.pc.toNat + (encode i).length ≤ 256 →
    (∀ (k : Nat) (h : k < (encode i).length), Memory.read s.mem (s.pc.toNat + k) = (encode i)[k]) →
    step s = exec i s

/-- A byte at `pc` that is none of the 21 opcodes: `STATUS` becomes Faulted with that byte, nothing else changes, the
exit status is not zero, and no further instruction executes (60_exceptions.md R112). That a step of the faulted core
answers the same state, and not a stop, is the model's choice: log entry 2; that the exit status is a function of
`STATUS` too: log entry 13. -/
def Obligations.UnknownOpcodeEndsTheRun : Prop :=
  ∀ s : State, s.status = .running → Opcode.ofByte (s.readByte s.pc) = none →
    ∃ t, step s = .next t ∧ t = { s with status := .faulted .unknownOpcode ((s.readByte s.pc).setWidth 9) } ∧
      (∃ n, t.status.exitStatus = some n ∧ n ≠ 0) ∧ step t = .next t

/-- An instruction whose operand bytes do not fit below address 256 is `AddressFault(OperandFetch, 256)`, with no
other change. The guard and the order are the spec's decisions D4 and D24 (40_dispatcher.md R63). -/
def Obligations.OperandFetchPastTheEndFaults : Prop :=
  ∀ (s : State) (o : Opcode), s.status = .running → Opcode.ofByte (s.readByte s.pc) = some o →
    255 < s.pc.toNat + o.nopsColumn →
    step s = .next { s with status := .faulted .operandFetch 256 }

/-- While `STATUS` is not Running nothing changes (the spec's decision D10, vector L4). That the model answers the
same state, and not a stop, is the model's choice: log entry 2. -/
def Obligations.NothingChangesUnlessRunning : Prop :=
  ∀ s : State, s.status ≠ .running → step s = .next s

/-- Every step and every instruction answers a next state, from every state: the machine has no stop and no refusal,
its faults are values of `STATUS` (the model's reading, log entry 4). -/
def Obligations.EveryStepAnswersANextState : Prop :=
  (∀ s : State, ∃ t, step s = .next t) ∧ (∀ (i : Instr) (s : State), ∃ t, exec i s = .next t)

/-- A table word stored where the next step fetches is what that step runs, for every word the decoder knows and every
`pc` that leaves room for three bytes. -/
def Obligations.StoredFetchWordRunsNext : Prop :=
  ∀ (s : State) (nbits w : Nat) (i : Instr), Memory.wf s.mem = true → s.pc.toNat ≤ 253 →
    decodeTableWord nbits w = some i → step (s.withFetchWord nbits w) = exec i (s.withFetchWord nbits w)

/-! ### The ALU -/

/-- ADD: `x[a] <- (x[a] + x[b]) mod 256`, nothing else but `pc`; register bytes above 7 fault. -/
def Obligations.AddWritesTheSumModulo256 : Prop :=
  ComputesFromBoth 0xA0 .add (fun x y => (x + y) % 256)

/-- MULT: `x[a] <- (x[a] * x[b]) mod 256`, nothing else but `pc`; register bytes above 7 fault. -/
def Obligations.MultWritesTheProductModulo256 : Prop :=
  ComputesFromBoth 0xA2 .mult (fun x y => (x * y) % 256)

/-- MOD: `x[a] <- x[a] mod x[b]` when `x[b]` is not 0; `DivideByZero(b)` with no other change when it is, at every
`pc`; register bytes above 7 fault first, whatever the registers hold. -/
def Obligations.ModWritesTheRemainderOrFaults : Prop :=
  FormatRR 0xA4 .mod ∧
  (∀ (s : State) (i j : Fin 8), s.pc.toNat ≤ 252 → s.x j ≠ 0 →
    WritesRegisterOnly (.mod (regByte i) (regByte j)) s i ((s.x i).toNat % (s.x j).toNat)) ∧
  (∀ (s : State) (i j : Fin 8), s.x j = 0 →
    exec (.mod (regByte i) (regByte j)) s =
      .next { s with status := .faulted .divideByZero (BitVec.ofNat 9 j.val) }) ∧
  ChecksBothRegisters .mod

/-- AND, OR and XOR: the bitwise operation on `x[a]` and `x[b]`, stored into `x[a]`, nothing else but `pc`; register
bytes above 7 fault. -/
def Obligations.BitwiseOperationsWriteTheirResult : Prop :=
  ComputesFromBoth 0xA8 .and (fun x y => x &&& y) ∧ ComputesFromBoth 0xAA .or (fun x y => x ||| y) ∧
  ComputesFromBoth 0xAB .xor (fun x y => x ^^^ y)

/-- NOT: `x[a] <- 255 - x[a]` for every second operand byte, which is neither used nor checked (the spec's decision
D7); a first byte above 7 faults. -/
def Obligations.NotComplementsAndIgnoresItsSecondByte : Prop :=
  FormatRR 0xA9 .not ∧
  (∀ (s : State) (i : Fin 8) (b : Byte), s.pc.toNat ≤ 252 →
    WritesRegisterOnly (.not (regByte i) b) s i (255 - (s.x i).toNat)) ∧
  (∀ b : Byte, ChecksRegister (fun a => .not a b))

/-- SHL and SHR: the whole of `x[b]` is the amount, SHL is reduced modulo 256, SHR is logical (the spec's decision
D15); register bytes above 7 fault. -/
def Obligations.ShiftsUseTheWholeAmount : Prop :=
  ComputesFromBoth 0xAC .shl (fun x y => (x * 2 ^ y) % 256) ∧ ComputesFromBoth 0xAD .shr (fun x y => x / 2 ^ y)

/-- CMP: the whole of `FL` becomes 01, 02 or 04 as `x[a]` equals, exceeds or is below `x[b]`, unsigned (the spec's
decision D14); nothing else but `pc`; register bytes above 7 fault. -/
def Obligations.CompareSetsExactlyOneFlag : Prop :=
  FormatRR 0xA7 .cmp ∧
  (∀ (s : State) (i j : Fin 8), s.pc.toNat ≤ 252 →
    ∃ t, exec (.cmp (regByte i) (regByte j)) s = .next t ∧
      ((s.x i).toNat = (s.x j).toNat → t.fl = 0b00000001) ∧
      ((s.x i).toNat > (s.x j).toNat → t.fl = 0b00000010) ∧
      ((s.x i).toNat < (s.x j).toNat → t.fl = 0b00000100) ∧
      t.pc.toNat = s.pc.toNat + 3 ∧ (∀ k, t.x k = s.x k) ∧ s.SameMemory t ∧ t.out = s.out ∧ t.status = s.status) ∧
  ChecksBothRegisters .cmp

/-- The ALU is total on bytes: a byte outside the ALU set answers `InvalidAluOp`, and no step ever raises it (41_alu.md
R87 and 60_exceptions.md R113, inferences the spec marks as its own). -/
def Obligations.InvalidAluOpIsNeverRaised : Prop :=
  (∀ (op a b : Byte) (s : State), (∀ o : Opcode, o.byte = op → o.isAlu = false) →
    aluExecute op a b s = .error ⟨.invalidAluOp, op.setWidth 9⟩) ∧
  (∀ (s t : State) (info : Info), s.status = .running → step s = .next t → t.status ≠ .faulted .invalidAluOp info)

/-- `DivideByZero` comes from MOD with a zero right-hand register and from nothing else, with nothing but `STATUS`
changed; no other ALU operation on registers in range faults, whatever the values. -/
def Obligations.OnlyModByZeroIsAnArithmeticFault : Prop :=
  (∀ (s t : State) (i : Instr) (info : Info), s.status = .running → exec i s = .next t →
    t.status = .faulted .divideByZero info →
    ∃ d j : Fin 8, i = .mod (regByte d) (regByte j) ∧ s.x j = 0 ∧ info = BitVec.ofNat 9 j.val ∧
      t = { s with status := .faulted .divideByZero info }) ∧
  (∀ (s : State) (d j : Fin 8), s.x j = 0 →
    exec (.mod (regByte d) (regByte j)) s =
      .next { s with status := .faulted .divideByZero (BitVec.ofNat 9 j.val) }) ∧
  (∀ (s : State) (i : Instr), i.wellFormed = true → i.opcode.isAlu = true → i.opcode ≠ .mod → s.pc.toNat ≤ 252 →
    ∃ t, exec i s = .next t ∧ t.status = s.status)

/-! ### Stack and control flow -/

/-- PUSH: `SP` is decremented modulo 256, then `x[a]`, read after that, is stored at the new `SP`; `pc` advances by 2,
or, at `pc` = 254, `AddressFault(PcAdvance, 256)` with the effects kept; a byte above 7 faults. (What `PUSH R7` stores is
an inference the spec marks as its own, 42_stack_control.md R90.) -/
def Obligations.PushDecrementsThenStores : Prop :=
  FormatR 0x45 .push ∧
  (∀ (s : State) (i : Fin 8), Memory.wf s.mem = true → s.pc.toNat ≤ 254 →
    ∃ t, exec (.push (regByte i)) s = .next t ∧
      t.x 7 = s.x 7 - 1 ∧ t.readByte (s.x 7 - 1) = (if i = 7 then s.x 7 - 1 else s.x i) ∧
      s.SameRegsExcept t [7] ∧ s.SameMemoryExcept t (s.x 7 - 1) ∧ t.fl = s.fl ∧ t.out = s.out ∧
      (s.pc.toNat ≤ 253 → t.pc.toNat = s.pc.toNat + 2 ∧ t.status = s.status) ∧
      (s.pc.toNat = 254 → t.pc = s.pc ∧ t.status = .faulted .pcAdvance 256)) ∧
  ChecksRegister .push

/-- POP: `x[a]` is loaded from `SP`, then `x[7]` is incremented modulo 256, so `POP R7` leaves the loaded byte plus 1;
memory keeps its bytes; `pc` advances by 2, or, at `pc` = 254, `AddressFault(PcAdvance, 256)` with the effects kept; a
byte above 7 faults. (What `POP R7` leaves is an inference the spec marks as its own, 42_stack_control.md R91.) -/
def Obligations.PopLoadsThenIncrements : Prop :=
  FormatR 0x46 .pop ∧
  (∀ (s : State) (i : Fin 8), s.pc.toNat ≤ 254 →
    ∃ t, exec (.pop (regByte i)) s = .next t ∧
      t.x i = (if i = 7 then s.readByte (s.x 7) + 1 else s.readByte (s.x 7)) ∧
      (i ≠ 7 → t.x 7 = s.x 7 + 1) ∧
      s.SameRegsExcept t [7, i.val] ∧ s.SameMemory t ∧ t.fl = s.fl ∧ t.out = s.out ∧
      (s.pc.toNat ≤ 253 → t.pc.toNat = s.pc.toNat + 2 ∧ t.status = s.status) ∧
      (s.pc.toNat = 254 → t.pc = s.pc ∧ t.status = .faulted .pcAdvance 256)) ∧
  ChecksRegister .pop

/-- CALL: `SP` is decremented, the return address `pc + 2` is stored at the new `SP`, and control goes to `x[a]`, read
after the decrement; at `pc` = 254 it is `AddressFault(ReturnAddress, 256)` with nothing pushed (the spec's decision
D18); a byte above 7 faults first. -/
def Obligations.CallPushesTheReturnAddress : Prop :=
  FormatR 0x50 .call ∧
  (∀ (s : State) (i : Fin 8), Memory.wf s.mem = true → s.pc.toNat ≤ 253 →
    ∃ t, exec (.call (regByte i)) s = .next t ∧
      t.x 7 = s.x 7 - 1 ∧ (t.readByte (s.x 7 - 1)).toNat = s.pc.toNat + 2 ∧
      t.pc = (if i = 7 then s.x 7 - 1 else s.x i) ∧
      s.SameRegsExcept t [7] ∧ s.SameMemoryExcept t (s.x 7 - 1) ∧ t.fl = s.fl ∧ t.out = s.out ∧
      t.status = s.status) ∧
  (∀ (s : State) (i : Fin 8), s.pc.toNat = 254 →
    exec (.call (regByte i)) s = .next { s with status := .faulted .returnAddress 256 }) ∧
  ChecksRegister .call

/-- RET completes from every state: `pc` is the byte at `SP`, `SP` is incremented modulo 256, nothing else changes. And
CALL followed by RET returns `pc` to the address after the CALL, with `SP` as it was before it. -/
def Obligations.RetPopsThePc : Prop :=
  FormatZ 0x11 .ret ∧
  (∀ s : State, ∃ t, exec .ret s = .next t ∧ t.pc = s.readByte (s.x 7) ∧ t.x 7 = s.x 7 + 1 ∧
    s.SameRegsExcept t [7] ∧ s.SameMemory t ∧ t.fl = s.fl ∧ t.out = s.out ∧ t.status = s.status) ∧
  (∀ (s : State) (i : Fin 8), Memory.wf s.mem = true → s.pc.toNat ≤ 253 →
    ∃ t u, exec (.call (regByte i)) s = .next t ∧ exec .ret t = .next u ∧
      u.pc.toNat = s.pc.toNat + 2 ∧ u.x 7 = s.x 7)

/-- JMP: control goes to the address in `x[a]`, from every `pc`; nothing else changes; a byte above 7 faults. -/
def Obligations.JmpGoesToTheRegister : Prop :=
  FormatR 0x54 .jmp ∧
  (∀ (s : State) (i : Fin 8), exec (.jmp (regByte i)) s = .next { s with pc := s.x i }) ∧ ChecksRegister .jmp

/-- JEQ: with `FL` equal to 01, all of it, it jumps to `x[a]` from every `pc`, and a byte above 7 faults; with any other
`FL` it goes to `pc + 2` whatever its operand byte, and at `pc` = 254 it is `AddressFault(PcAdvance, 256)`. -/
def Obligations.JeqJumpsOnTheEqualPattern : Prop :=
  FormatR 0x55 .jeq ∧
  ∀ s : State,
    (s.fl = 0b00000001 →
      (∀ i : Fin 8, exec (.jeq (regByte i)) s = .next { s with pc := s.x i }) ∧
      (∀ a : Byte, 7 < a.toNat → exec (.jeq a) s = .next { s with status := .faulted .regIndex (a.setWidth 9) })) ∧
    (s.fl ≠ 0b00000001 → ∀ a : Byte,
      (s.pc.toNat ≤ 253 → ∃ t, exec (.jeq a) s = .next t ∧ t.pc.toNat = s.pc.toNat + 2 ∧ t = { s with pc := t.pc }) ∧
      (s.pc.toNat = 254 → exec (.jeq a) s = .next { s with status := .faulted .pcAdvance 256 }))

/-- JNE: the same with the condition inverted; before any CMP, `FL` = 0 and it jumps. -/
def Obligations.JneJumpsOnAnyOtherPattern : Prop :=
  FormatR 0x56 .jne ∧
  ∀ s : State,
    (s.fl ≠ 0b00000001 →
      (∀ i : Fin 8, exec (.jne (regByte i)) s = .next { s with pc := s.x i }) ∧
      (∀ a : Byte, 7 < a.toNat → exec (.jne a) s = .next { s with status := .faulted .regIndex (a.setWidth 9) })) ∧
    (s.fl = 0b00000001 → ∀ a : Byte,
      (s.pc.toNat ≤ 253 → ∃ t, exec (.jne a) s = .next t ∧ t.pc.toNat = s.pc.toNat + 2 ∧ t = { s with pc := t.pc }) ∧
      (s.pc.toNat = 254 → exec (.jne a) s = .next { s with status := .faulted .pcAdvance 256 }))

/-- After a CMP of two registers, JEQ through any register jumps and JNE falls through exactly when they hold equal
values (95_test_vectors.md P4): the flags reach the next instructions. -/
def Obligations.CompareSteersTheConditionalJumps : Prop :=
  ∀ (s t : State) (i j k : Fin 8), s.pc.toNat ≤ 250 → exec (.cmp (regByte i) (regByte j)) s = .next t →
    (s.x i = s.x j →
      exec (.jeq (regByte k)) t = .next { t with pc := s.x k } ∧
      ∃ u, exec (.jne (regByte k)) t = .next u ∧ u.pc.toNat = s.pc.toNat + 5) ∧
    (s.x i ≠ s.x j →
      exec (.jne (regByte k)) t = .next { t with pc := s.x k } ∧
      ∃ u, exec (.jeq (regByte k)) t = .next u ∧ u.pc.toNat = s.pc.toNat + 5)

/-- PUSH i then POP j, for i and j in 0..6, run by two steps from memory: `SP` is as before and `x[j]` holds what `x[i]`
held, unless the push overwrote one of the four instruction bytes (42_stack_control.md R98, an inference the spec
marks as its own). -/
def Obligations.PushThenPopMovesARegister : Prop :=
  ∀ (s : State) (i j : Fin 8), s.status = .running → Memory.wf s.mem = true → i ≠ 7 → j ≠ 7 → s.pc.toNat ≤ 251 →
    s.readByte s.pc = 0x45 → s.readByte (s.pc + 1) = regByte i →
    s.readByte (s.pc + 2) = 0x46 → s.readByte (s.pc + 3) = regByte j →
    (∀ k : Nat, k < 4 → (s.x 7 - 1).toNat ≠ s.pc.toNat + k) →
    ∃ t u, step s = .next t ∧ step t = .next u ∧ u.x 7 = s.x 7 ∧ u.x j = s.x i ∧ u.pc.toNat = s.pc.toNat + 4

/-! ### Simple instructions -/

/-- HALT: `STATUS` becomes Halted at every `pc`, 255 included, and nothing else changes; the exit status is 0; no step
is taken after it (43_simple.md R100). Exit status 0 is an inference the spec marks as its own (60_exceptions.md R128),
and a function of `STATUS` by the model's choice (log entry 13); that a step of the halted core answers the same state,
and not a stop, is the model's choice: log entry 2. -/
def Obligations.HaltEndsTheRunInPlace : Prop :=
  FormatZ 0x01 .halt ∧
  ∀ s : State, ∃ t, exec .halt s = .next t ∧ t = { s with status := .halted } ∧ t.status.exitStatus = some 0 ∧
    step t = .next t

/-- LDI: `x[a]` is the immediate byte, for every register and value; nothing else but `pc`; at `pc` = 253 the write
stays and `AddressFault(PcAdvance, 256)` follows; from `pc` = 254 on the operand fetch faults; a byte above 7 faults. -/
def Obligations.LdiLoadsTheImmediate : Prop :=
  FormatRR 0x82 .ldi ∧
  (∀ (s : State) (i : Fin 8) (v : Byte), s.pc.toNat ≤ 253 →
    ∃ t, exec (.ldi (regByte i) v) s = .next t ∧ t.x i = v ∧ s.SameRegsExcept t [i.val] ∧ s.SameMemory t ∧
      t.fl = s.fl ∧ t.out = s.out ∧
      (s.pc.toNat ≤ 252 → t.pc.toNat = s.pc.toNat + 3 ∧ t.status = s.status) ∧
      (s.pc.toNat = 253 → t.pc = s.pc ∧ t.status = .faulted .pcAdvance 256)) ∧
  (∀ v : Byte, ChecksRegister (fun a => .ldi a v)) ∧
  (∀ s : State, s.status = .running → s.readByte s.pc = 0x82 → 254 ≤ s.pc.toNat →
    step s = .next { s with status := .faulted .operandFetch 256 })

/-- PRN: the value of `x[a]` is appended to `OUT`, nothing else but `pc`; at `pc` = 254 the output stays and
`AddressFault(PcAdvance, 256)` follows; a byte above 7 faults with nothing emitted. That the core emits the value, not
text, is the spec's decision D16. -/
def Obligations.PrnAppendsTheValue : Prop :=
  FormatR 0x47 .prn ∧
  (∀ (s : State) (i : Fin 8), s.pc.toNat ≤ 254 →
    ∃ t, exec (.prn (regByte i)) s = .next t ∧ t.out = s.out ++ [s.x i] ∧ (∀ k, t.x k = s.x k) ∧ s.SameMemory t ∧
      t.fl = s.fl ∧
      (s.pc.toNat ≤ 253 → t.pc.toNat = s.pc.toNat + 2 ∧ t.status = s.status) ∧
      (s.pc.toNat = 254 → t.pc = s.pc ∧ t.status = .faulted .pcAdvance 256)) ∧
  ChecksRegister .prn

/-- NOP: only `pc` moves, by 1; at `pc` = 255 it is `AddressFault(PcAdvance, 256)`. -/
def Obligations.NopOnlyAdvances : Prop :=
  FormatZ 0x00 .nop ∧
  ∀ s : State,
    (s.pc.toNat ≤ 254 → ∃ t, exec .nop s = .next t ∧ t.pc.toNat = s.pc.toNat + 1 ∧ t = { s with pc := t.pc }) ∧
    (s.pc.toNat = 255 → exec .nop s = .next { s with status := .faulted .pcAdvance 256 })

/-! ### Frames -/

/-- Frame of the instructions whose destination is a register: LDI, ADD, MULT, MOD, AND, NOT, OR, XOR, SHL, SHR change
no register but the one their first operand byte names, no flag, no byte of memory, no output; `STATUS` only by a
fault. A first byte above 7 names no register. -/
def Obligations.FrameOfRegisterWriters : Prop :=
  ∀ (s t : State) (i : Instr) (d b : Byte),
    (i = .ldi d b ∨ i = .add d b ∨ i = .mult d b ∨ i = .mod d b ∨ i = .and d b ∨ i = .not d b ∨ i = .or d b ∨
      i = .xor d b ∨ i = .shl d b ∨ i = .shr d b) →
    exec i s = .next t →
    s.SameRegsExcept t [d.toNat] ∧ t.fl = s.fl ∧ s.SameMemory t ∧ t.out = s.out ∧ s.SameStatusOrFaulted t

/-- Frame of CMP: no register, no byte of memory, no output; `STATUS` only by a fault. Where both bytes are at most 7, at
every `pc`, the new `FL` has bits 7..3 zero and exactly one of bits 2..0 set, whatever it held (41_alu.md R85); where a
byte is above 7, `FL` is unchanged. -/
def Obligations.FrameOfCompare : Prop :=
  ∀ (s t : State) (a b : Byte), exec (.cmp a b) s = .next t →
    (∀ k, t.x k = s.x k) ∧ s.SameMemory t ∧ t.out = s.out ∧ s.SameStatusOrFaulted t ∧
    (a.toNat ≤ 7 → b.toNat ≤ 7 → t.fl = 0b00000001 ∨ t.fl = 0b00000010 ∨ t.fl = 0b00000100) ∧
    (7 < a.toNat ∨ 7 < b.toNat → t.fl = s.fl)

/-- Frame of the jumps JMP, JEQ, JNE: no register, no flag, no byte of memory, no output; `STATUS` only by a fault. -/
def Obligations.FrameOfJumps : Prop :=
  ∀ (s t : State) (i : Instr) (a : Byte), (i = .jmp a ∨ i = .jeq a ∨ i = .jne a) → exec i s = .next t →
    (∀ k, t.x k = s.x k) ∧ t.fl = s.fl ∧ s.SameMemory t ∧ t.out = s.out ∧ s.SameStatusOrFaulted t

/-- Frame of NOP, HALT and PRN: no register, no flag, no byte of memory; NOP and HALT emit nothing, PRN keeps what was
emitted. -/
def Obligations.FrameOfSimpleInstructions : Prop :=
  ∀ (s t : State) (i : Instr), (i = .nop ∨ i = .halt ∨ ∃ a, i = .prn a) → exec i s = .next t →
    (∀ k, t.x k = s.x k) ∧ t.fl = s.fl ∧ s.SameMemory t ∧
    ((i = .nop ∨ i = .halt) → t.out = s.out) ∧ (s.out <+: t.out) ∧
    (i ≠ .halt → s.SameStatusOrFaulted t)

/-- Frame of PUSH and CALL: no register but `SP`, which the spec says they update, no flag, no output, and no byte of
memory but the one at the address their meaning stores to, `SP` after the decrement. -/
def Obligations.FrameOfStackStores : Prop :=
  ∀ (s t : State) (i : Instr) (a : Byte), (i = .push a ∨ i = .call a) → exec i s = .next t →
    s.SameRegsExcept t [7] ∧ t.fl = s.fl ∧ t.out = s.out ∧ s.SameStatusOrFaulted t ∧
    (∀ stored : Word, s.decSp.sp = stored → s.SameMemoryExcept t stored)

/-- Frame of POP and RET: no register but `SP` and POP's destination, no flag, no output, no byte of memory. -/
def Obligations.FrameOfStackLoads : Prop :=
  ∀ (s t : State),
    (∀ a : Byte, exec (.pop a) s = .next t →
      s.SameRegsExcept t [7, a.toNat] ∧ t.fl = s.fl ∧ t.out = s.out ∧ s.SameMemory t ∧ s.SameStatusOrFaulted t) ∧
    (exec .ret s = .next t →
      s.SameRegsExcept t [7] ∧ t.fl = s.fl ∧ t.out = s.out ∧ s.SameMemory t ∧ t.status = s.status)

/-! ### Rules of the whole machine -/

/-- `FL` is written by CMP alone, which overwrites all of it, and read by JEQ and JNE alone: any other instruction does
the same whatever `FL` holds, and leaves it; JEQ and JNE see no more of it than whether it is the equal-bit-only pattern;
CMP's answer on registers in range does not depend on it. -/
def Obligations.FlagsAreWrittenByCompareAndReadByJumps : Prop :=
  (∀ (s t : State) (i : Instr), i.opcode ≠ .cmp → exec i s = .next t → t.fl = s.fl) ∧
  (∀ (s t : State) (i : Instr) (v : Word), i.opcode ≠ .cmp → i.opcode ≠ .jeq → i.opcode ≠ .jne →
    exec i s = .next t → exec i { s with fl := v } = .next { t with fl := v }) ∧
  (∀ (s t : State) (i : Instr) (v : Word), i.opcode = .jeq ∨ i.opcode = .jne → (v = 0b00000001 ↔ s.fl = 0b00000001) →
    exec i s = .next t → exec i { s with fl := v } = .next { t with fl := v }) ∧
  (∀ (s : State) (a b : Fin 8) (v : Word),
    exec (.cmp (regByte a) (regByte b)) { s with fl := v } = exec (.cmp (regByte a) (regByte b)) s)

/-- During a run memory changes only by PUSH and CALL. -/
def Obligations.OnlyPushAndCallWriteMemory : Prop :=
  ∀ s t : State, step s = .next t → t.mem ≠ s.mem →
    ∃ a rest, decode s.fetchBytes = .ok (.push a, rest) ∨ decode s.fetchBytes = .ok (.call a, rest)

/-- `OUT` grows only by PRN, by the one value of its register; no instruction reads it, since a step does the same
whatever it holds; it is empty after reset and after `run`. -/
def Obligations.OutputIsAppendedByPrnAndReadByNothing : Prop :=
  (∀ s t : State, step s = .next t → t.out = s.out ∨
    ∃ (i : Fin 8) (rest : List Byte), decode s.fetchBytes = .ok (.prn (regByte i), rest) ∧ t.out = s.out ++ [s.x i]) ∧
  (∀ s t : State, step s = .next t →
    ∃ emitted, t.out = s.out ++ emitted ∧
      ∀ o : List Word, step { s with out := o } = .next { t with out := o ++ emitted }) ∧
  (∀ mem0, (resetWith mem0).out = []) ∧ (∀ s : State, s.status = .idle → s.run.out = [])

/-- A run ends in exactly two ways: HALT executes, and then only `STATUS` changes, or a fatal condition is raised; in
both no further step is taken. Otherwise it goes on, and a JMP to itself goes on for ever (40_dispatcher.md R68). That a
step of the halted or faulted core answers the same state, and not a stop, is the model's choice: log entry 2. -/
def Obligations.RunEndsByHaltOrFaultOnly : Prop :=
  (∀ s t : State, s.status = .running → step s = .next t →
    t.status = .running ∨
    (∃ rest, decode s.fetchBytes = .ok (.halt, rest) ∧ t = { s with status := .halted } ∧ step t = .next t) ∨
    (t.GoneWrong ∧ step t = .next t)) ∧
  (∀ (s : State) (rest : List Byte), s.status = .running → decode s.fetchBytes = .ok (.halt, rest) →
    step s = .next { s with status := .halted }) ∧
  (∀ (s : State) (i : Fin 8) (rest : List Byte), s.status = .running →
    decode s.fetchBytes = .ok (.jmp (regByte i), rest) → s.x i = s.pc → step s = .next s)

/-- Faults are precise: at a fault `pc` is that of the faulting instruction, and but for `AddressFault(PcAdvance)` nothing
other than `STATUS` has changed; the info fits the cause (60_exceptions.md R111, R118; the precision is the spec's
decision D8). -/
def Obligations.FaultsArePrecise : Prop :=
  ∀ (s t : State) (c : FaultCause) (info : Info), s.status = .running → step s = .next t →
    t.status = .faulted c info →
    t.pc = s.pc ∧ legalFault c info ∧ (c ≠ .pcAdvance → t = { s with status := .faulted c info })

/-- Of several faults a step could meet it reports the first: unknown opcode; operand fetch, whatever the operand bytes
hold; register index, `a` before `b`, whatever the registers hold; then MOD's zero divisor or CALL's return address; and
the advance of `pc` last, which an instruction with registers in range reaches (60_exceptions.md R117, the spec's
decision D8). -/
def Obligations.FaultsAreReportedInPriorityOrder : Prop :=
  ∀ s t : State, s.status = .running → step s = .next t →
    (Opcode.ofByte (s.readByte s.pc) = none →
      t.status = .faulted .unknownOpcode ((s.readByte s.pc).setWidth 9)) ∧
    (∀ o : Opcode, Opcode.ofByte (s.readByte s.pc) = some o → 255 < s.pc.toNat + o.nopsColumn →
      t.status = .faulted .operandFetch 256) ∧
    (∀ (a b : Byte) (rest : List Byte), decode s.fetchBytes = .ok (.mod a b, rest) →
      (7 < a.toNat → t.status = .faulted .regIndex (a.setWidth 9)) ∧
      (a.toNat ≤ 7 → 7 < b.toNat → t.status = .faulted .regIndex (b.setWidth 9)) ∧
      (∀ i j : Fin 8, a = regByte i → b = regByte j → s.x j = 0 →
        t.status = .faulted .divideByZero (b.setWidth 9))) ∧
    (∀ (a : Byte) (rest : List Byte), decode s.fetchBytes = .ok (.call a, rest) →
      (7 < a.toNat → t.status = .faulted .regIndex (a.setWidth 9)) ∧
      (a.toNat ≤ 7 → s.pc.toNat = 254 → t.status = .faulted .returnAddress 256)) ∧
    (∀ (i : Instr) (rest : List Byte), decode s.fetchBytes = .ok (i, rest) → i.wellFormed = true →
      i.opcode.selfposColumn = false → i ≠ .halt → i.opcode ≠ .mod → 255 < s.pc.toNat + (encode i).length →
      t.status = .faulted .pcAdvance 256)

/-- An auto-advancing instruction whose next `pc` would be above 255 keeps its effects: it answers what it answers at
`pc` = 0, with `pc` unchanged and `STATUS` Faulted with `PcAdvance` and the address; a fault it raises itself comes
first (the spec's decisions D4 and D22). -/
def Obligations.PcAdvanceFaultKeepsTheEffects : Prop :=
  ∀ (s t : State) (i : Instr), i.opcode.selfposColumn = false → i ≠ .halt → s.status = .running →
    255 < s.pc.toNat + (encode i).length → exec i { s with pc := 0 } = .next t →
    (t.status = .running →
      exec i s = .next { t with pc := s.pc, status := .faulted .pcAdvance (BitVec.ofNat 9 (s.pc.toNat + (encode i).length)) }) ∧
    (t.GoneWrong → exec i s = .next { t with pc := s.pc })

/-- Where `pc` goes, by instruction, for every step that does not fault, and that it stays at a fault (10_state.md
R16; CALL through R7 as 42_stack_control.md R92 says, an inference the spec marks as its own). -/
def Obligations.PcAfterEachInstruction : Prop :=
  ∀ (s t : State) (i : Instr) (rest : List Byte), s.status = .running → decode s.fetchBytes = .ok (i, rest) →
    step s = .next t → (t.GoneWrong → t.pc = s.pc) ∧ (¬ t.GoneWrong → t.pc.toNat = nextPc i s)

/-! ### Reset, run, load -/

/-- `reset`, from any state: registers 0..6 are 0, SP is F4, `pc` and `FL` are 0, `STATUS` is Idle with cause and info 0,
`OUT` is empty, and memory is the image given. (`FL` is the spec's decision D3, `STATUS` D10, the image D11.) -/
def Obligations.ResetGivesTheResetValues : Prop :=
  ∀ (s : State) (mem0 : Vector Byte 256), ∃ t, s.host (.reset mem0) = some t ∧
    (∀ k : Fin 8, t.x k = if k = 7 then 0xF4 else 0x00) ∧ t.pc = 0x00 ∧ t.fl = 0x00 ∧ t.status = .idle ∧
    t.status.causeField = 0 ∧ t.status.infoField = 0 ∧ t.out = [] ∧
    (∀ a : Fin 256, t.readByte (BitVec.ofNat 8 a.val) = mem0[a])

/-- `run` is accepted only in Idle: `pc` 0, `OUT` empty, `STATUS` Running, registers, `FL` and memory untouched; ignored
in any other state. After reset, the first instruction executes with registers 0..6 zero, SP F4, `FL` 0, `pc` 0 and
memory the image MEM0. -/
def Obligations.RunStartsAtZeroFromIdle : Prop :=
  (∀ s : State, s.status = .idle → s.host .run = some { s with pc := 0, out := [], status := .running }) ∧
  (∀ s : State, s.status ≠ .idle → s.host .run = some s) ∧
  (∀ mem0 : Vector Byte 256, ∃ t, (resetWith mem0).host .run = some t ∧
    (∀ k : Fin 8, t.x k = if k = 7 then 0xF4 else 0x00) ∧ t.fl = 0x00 ∧ t.pc = 0x00 ∧ t.status = .running ∧
    (∀ a : Fin 256, t.readByte (BitVec.ofNat 8 a.val) = mem0[a]))

/-- Loading a program while Idle puts byte `k` at address `k` and changes nothing else; a program of more than 256 bytes is
refused (the spec's decision D25; that the refusal is `none` is the model's choice, log entry 12). -/
def Obligations.LoadPutsTheProgramAtZero : Prop :=
  (∀ (s : State) (p : List Byte), s.status = .idle → Memory.wf s.mem = true → p.length ≤ 256 →
    ∃ t, s.load p = some t ∧ (∀ (k : Nat) (h : k < p.length), t.readByte (BitVec.ofNat 8 k) = p[k]) ∧
      (∀ c : Word, p.length ≤ c.toNat → t.readByte c = s.readByte c) ∧ t = { s with mem := t.mem }) ∧
  (∀ (s : State) (p : List Byte), 256 < p.length → s.load p = none)

/-- The host writes a memory cell only while Idle, and then that cell alone changes; outside Idle the model has no such
transition (00_scope.md R6; that it is `none` is the model's choice, log entry 5). -/
def Obligations.HostWritesOnlyWhileIdle : Prop :=
  (∀ (s : State) (a : Word) (v : Byte), s.status ≠ .idle → s.host (.write a v) = none) ∧
  (∀ (s : State) (a : Word) (v : Byte), s.status = .idle → Memory.wf s.mem = true →
    ∃ t, s.host (.write a v) = some t ∧ t.readByte a = v ∧ s.SameMemoryExcept t a ∧ t = { s with mem := t.mem })

/-- The values at the three status ports: the states 0..3 (10_state.md R21), the causes 1..7 and the info of a fault
(60_exceptions.md R111), cause and info 0 in any other state (log entry 8); the exit status, 0 for a halt, 1 for every
fault, none before the end (60_exceptions.md R128; a function by log entry 13). And together the ports determine the
status: no two statuses look alike to the host. The encodings are the spec's decisions D9, D10 and D17; exit status 0 is
an inference the spec marks as its own. -/
def Obligations.StatusPortsDetermineTheStatus : Prop :=
  (Status.idle.stateField = 0 ∧ Status.running.stateField = 1 ∧ Status.halted.stateField = 2) ∧
  (∀ (c : FaultCause) (info : Info), (Status.faulted c info).stateField = 3 ∧
    (Status.faulted c info).infoField = info ∧ (Status.faulted c info).exitStatus = some 1) ∧
  (∀ info : Info,
    (Status.faulted .unknownOpcode info).causeField = 1 ∧ (Status.faulted .invalidAluOp info).causeField = 2 ∧
    (Status.faulted .divideByZero info).causeField = 3 ∧ (Status.faulted .operandFetch info).causeField = 4 ∧
    (Status.faulted .returnAddress info).causeField = 5 ∧ (Status.faulted .pcAdvance info).causeField = 6 ∧
    (Status.faulted .regIndex info).causeField = 7) ∧
  (∀ p : Status, p.stateField ≠ 3 → p.causeField = 0 ∧ p.infoField = 0) ∧
  (Status.halted.exitStatus = some 0 ∧ Status.idle.exitStatus = none ∧ Status.running.exitStatus = none) ∧
  (∀ p q : Status, p.stateField = q.stateField → p.causeField = q.causeField → p.infoField = q.infoField → p = q)

/-! ### Invariants -/

/-- Two memories in the canonical form that read alike at every address are the same data. -/
def Obligations.CanonicalMemoriesThatReadAlikeAreEqual : Prop :=
  ∀ m n : Memory, Memory.wf m = true → Memory.wf n = true →
    (∀ a, a < 256 → Memory.read m a = Memory.read n a) → m = n

/-- Every step keeps the invariant, from every state that meets it: the memory's canonical form, `FL` one of 00, 01, 02,
04 (10_state.md R20, an inference the spec marks as its own), a status whose info fits its cause. -/
def Obligations.EveryStepKeepsTheInvariant : Prop :=
  ∀ s t : State, s.Inv → step s = .next t → t.Inv

/-- The invariant holds at reset, for the model's own reset memory and for every image. -/
def Obligations.ResetMeetsTheInvariant : Prop :=
  State.reset.Inv ∧ ∀ mem0 : Vector Byte 256, (resetWith mem0).Inv

/-- Every action of the host keeps the invariant. -/
def Obligations.HostActionsKeepTheInvariant : Prop :=
  ∀ (s t : State) (act : HostAction), s.Inv → s.host act = some t → t.Inv

/-- In every state that the host and the core reach from reset, for any memory image and in any interleaving, the
invariant holds; so `FL` only ever holds 00, 01, 02 or 04, and no reached fault is `InvalidAluOp`. -/
def Obligations.ReachableStatesAreLegal : Prop :=
  ∀ s : State, Reachable s → s.Inv ∧ (∀ info, s.status ≠ .faulted .invalidAluOp info)
end

