-- ==== Sys2Proof/Laws/Memory.lean ====
section
/-! SUPPORT. The laws of memory: read after write, and that every memory operation keeps the canonical form. -/

namespace Sys2Proof.Machine

/-! ### Reading -/

@[simp] theorem Memory.read_nil (a : Nat) : Memory.read [] a = Config.unlistedByte := rfl

theorem Memory.read_cons (k : Nat) (v : Byte) (m : Memory) (a : Nat) :
    Memory.read ((k, v) :: m) a = if k = a then v else Memory.read m a := rfl

theorem Memory.read_entry (a : Nat) (v : Byte) (m : Memory) (c : Nat)
    (h : c = a → Memory.read m a = Config.unlistedByte) :
    Memory.read (Memory.entry a v m) c = if a = c then v else Memory.read m c := by
  unfold Memory.entry
  split
  · next hv =>
    by_cases hc : a = c
    · subst hc; simp [hv, h rfl]
    · simp [hc]
  · rfl

/-- In a memory that lists only addresses from `lo` on, a lower address reads as unlisted. -/
theorem Memory.read_below {lo : Nat} {m : Memory} (h : Memory.wfFrom lo m = true) {a : Nat} (ha : a < lo) :
    Memory.read m a = Config.unlistedByte := by
  induction m generalizing lo with
  | nil => rfl
  | cons kv rest ih =>
    obtain ⟨k, v⟩ := kv
    simp only [Memory.wfFrom, Bool.and_eq_true, decide_eq_true_eq] at h
    obtain ⟨⟨⟨hlo, -⟩, -⟩, hrest⟩ := h
    rw [Memory.read_cons, if_neg (by omega)]
    exact ih hrest (by omega)

/-- A write leaves every other address alone (20_memory.md R35). -/
theorem Memory.read_write_other (m : Memory) (a : Nat) (v : Byte) (c : Nat) (h : c ≠ a) :
    Memory.read (Memory.write m a v) c = Memory.read m c := by
  induction m with
  | nil =>
    unfold Memory.write
    rw [Memory.read_entry _ _ _ _ (fun e => absurd e h), if_neg (Ne.symm h)]
  | cons kv rest ih =>
    obtain ⟨k, w⟩ := kv
    unfold Memory.write
    split
    · rw [Memory.read_entry _ _ _ _ (fun e => absurd e h), if_neg (Ne.symm h)]
    · split
      · next hk =>
        rw [Memory.read_entry _ _ _ _ (fun e => absurd e h), if_neg (Ne.symm h), Memory.read_cons,
          if_neg (by omega)]
      · rw [Memory.read_cons, Memory.read_cons, ih]

theorem Memory.read_write_same_from {lo : Nat} {m : Memory} (hm : Memory.wfFrom lo m = true) (a : Nat) (v : Byte) :
    Memory.read (Memory.write m a v) a = v := by
  induction m generalizing lo with
  | nil =>
    unfold Memory.write
    rw [Memory.read_entry _ _ _ _ (fun _ => rfl), if_pos rfl]
  | cons kv rest ih =>
    obtain ⟨k, w⟩ := kv
    have hm' := hm
    simp only [Memory.wfFrom, Bool.and_eq_true, decide_eq_true_eq] at hm
    obtain ⟨⟨⟨-, -⟩, -⟩, hrest⟩ := hm
    unfold Memory.write
    split
    · next hlt =>
      rw [Memory.read_entry, if_pos rfl]
      intro _
      rw [Memory.read_cons, if_neg (by omega)]
      exact Memory.read_below hrest (by omega)
    · split
      · next hk =>
        rw [Memory.read_entry, if_pos rfl]
        intro _
        exact Memory.read_below hrest (by omega)
      · next hk =>
        rw [Memory.read_cons, if_neg (by omega)]
        exact ih hrest

/-- A read after a write to the same address gives the value written (20_memory.md R35, R38). -/
theorem Memory.read_write_same {m : Memory} (hm : Memory.wf m = true) (a : Nat) (v : Byte) :
    Memory.read (Memory.write m a v) a = v := Memory.read_write_same_from hm a v

/-! ### The canonical form -/

theorem Memory.wfFrom_weaken {lo lo' : Nat} {m : Memory} (h : Memory.wfFrom lo m = true) (hle : lo' ≤ lo) :
    Memory.wfFrom lo' m = true := by
  cases m with
  | nil => rfl
  | cons kv rest =>
    obtain ⟨k, v⟩ := kv
    simp only [Memory.wfFrom, Bool.and_eq_true, decide_eq_true_eq] at h ⊢
    obtain ⟨⟨⟨h1, h2⟩, h3⟩, h4⟩ := h
    exact ⟨⟨⟨by omega, h2⟩, h3⟩, h4⟩

theorem Memory.wfFrom_entry {lo a : Nat} {m : Memory} (v : Byte) (hm : Memory.wfFrom (a + 1) m = true)
    (hlo : lo ≤ a) (ha : a < Config.memSize) : Memory.wfFrom lo (Memory.entry a v m) = true := by
  unfold Memory.entry
  split
  · exact Memory.wfFrom_weaken hm (by omega)
  · next hv => simp [Memory.wfFrom, hlo, ha, hv, hm]

theorem Memory.wfFrom_write {lo : Nat} {m : Memory} (hm : Memory.wfFrom lo m = true) {a : Nat} (v : Byte)
    (hlo : lo ≤ a) (ha : a < Config.memSize) : Memory.wfFrom lo (Memory.write m a v) = true := by
  induction m generalizing lo with
  | nil => exact Memory.wfFrom_entry v rfl hlo ha
  | cons kv rest ih =>
    obtain ⟨k, w⟩ := kv
    have hm' := hm
    simp only [Memory.wfFrom, Bool.and_eq_true, decide_eq_true_eq] at hm
    obtain ⟨⟨⟨h1, h2⟩, h3⟩, h4⟩ := hm
    unfold Memory.write
    split
    · exact Memory.wfFrom_entry v (by simp [Memory.wfFrom, h2, h3, h4]; omega) hlo ha
    · split
      · next hk => exact Memory.wfFrom_entry v (hk ▸ h4) hlo ha
      · next hk => simp [Memory.wfFrom, h1, h2, h3, ih h4 (by omega)]

/-- A write keeps the canonical form. -/
theorem Memory.wf_write {m : Memory} (hm : Memory.wf m = true) {a : Nat} (ha : a < Config.memSize) (v : Byte) :
    Memory.wf (Memory.write m a v) = true := Memory.wfFrom_write hm v (Nat.zero_le a) ha

/-- Storing bytes keeps the canonical form. -/
theorem Memory.wf_storeBytes {m : Memory} (hm : Memory.wf m = true) (a : Nat) (bs : List Byte) :
    Memory.wf (Memory.storeBytes m a bs) = true := by
  induction bs generalizing m a with
  | nil => exact hm
  | cons b bs ih =>
    unfold Memory.storeBytes
    split
    · next ha => exact ih (Memory.wf_write hm ha b) _
    · exact ih hm _

/-- A memory image is in the canonical form. -/
theorem Memory.wf_ofImage (img : Vector Byte 256) : Memory.wf (Memory.ofImage img) = true :=
  Memory.wf_storeBytes rfl 0 _

/-- A byte write by address keeps the canonical form: an address is always in range (20_memory.md R34). -/
theorem State.writeByte_wf {s : State} (hs : Memory.wf s.mem = true) (a : Word) (v : Byte) :
    Memory.wf (s.writeByte a v).mem = true :=
  Memory.wf_write hs (by have := a.isLt; simpa [Config.memSize] using this) v

/-- The memory after reset is in the canonical form. -/
theorem State.reset_mem_wf : Memory.wf State.reset.mem = true := rfl

/-- Reading below the stored bytes. -/
theorem Memory.read_storeBytes_below (m : Memory) (a : Nat) (bs : List Byte) {c : Nat} (h : c < a) :
    Memory.read (Memory.storeBytes m a bs) c = Memory.read m c := by
  induction bs generalizing m a with
  | nil => rfl
  | cons b bs ih =>
    unfold Memory.storeBytes
    rw [ih _ _ (by omega)]
    split
    · exact Memory.read_write_other _ _ _ _ (by omega)
    · rfl

/-- Reading above the stored bytes. -/
theorem Memory.read_storeBytes_above (m : Memory) (a : Nat) (bs : List Byte) {c : Nat} (h : a + bs.length ≤ c) :
    Memory.read (Memory.storeBytes m a bs) c = Memory.read m c := by
  induction bs generalizing m a with
  | nil => rfl
  | cons b bs ih =>
    simp only [List.length_cons] at h
    unfold Memory.storeBytes
    rw [ih _ _ (by omega)]
    split
    · exact Memory.read_write_other _ _ _ _ (by omega)
    · rfl

/-- Reading a stored byte. -/
theorem Memory.read_storeBytes_at {m : Memory} (hm : Memory.wf m = true) (a : Nat) (bs : List Byte) (k : Nat)
    (hk : k < bs.length) (ha : a + k < Config.memSize) :
    Memory.read (Memory.storeBytes m a bs) (a + k) = bs[k] := by
  induction bs generalizing m a k with
  | nil => simp at hk
  | cons b bs ih =>
    unfold Memory.storeBytes
    rw [if_pos (by omega : a < Config.memSize)]
    have hm' := Memory.wf_write hm (by omega : a < Config.memSize) b
    cases k with
    | zero =>
      rw [Memory.read_storeBytes_below _ _ _ (by omega)]
      exact Memory.read_write_same hm a b
    | succ k =>
      have := ih hm' (a + 1) k (by simpa using hk) (by omega)
      rw [show a + (k + 1) = a + 1 + k by omega, this]
      rfl

end Sys2Proof.Machine
end

