-- ==== Sys2Proof/Laws/Decode.lean ====
section
/-! SUPPORT. The small lemmas of the opcode table and of operand fetch. -/

namespace Sys2Proof

/-- A table byte is looked up to its own mnemonic (30_encoding.md R51 (a)). -/
@[simp] theorem Opcode.ofByte_byte (o : Opcode) : Opcode.ofByte o.byte = some o := by
  cases o <;> decide

/-- A byte that the table knows is the byte of the mnemonic found. -/
theorem Opcode.byte_of_ofByte {b : Byte} {o : Opcode} (h : Opcode.ofByte b = some o) : o.byte = b := by
  have := List.find?_some h
  simpa using this

/-- Bits 7..6 of a table byte are its operand count (30_encoding.md R51 (b)). -/
@[simp] theorem nopsField_byte (o : Opcode) : nopsField o.byte = o.nopsColumn := by
  cases o <;> rfl

/-- Bit 4 of a table byte is its self-positioning class (30_encoding.md R51 (c)). -/
@[simp] theorem selfposField_byte (o : Opcode) : selfposField o.byte = o.selfposColumn := by
  cases o <;> rfl

/-- The number of operand bytes read is the column `nops` (40_dispatcher.md R63). -/
theorem Opcode.need_eq_nopsColumn (o : Opcode) : o.need = o.nopsColumn := by
  cases o <;> rfl

/-- The number of operand bytes read is the number coded in bits 7..6 (40_dispatcher.md R63). -/
theorem Opcode.need_eq_nopsField (o : Opcode) : o.need = nopsField o.byte := by
  cases o <;> rfl

/-- No defined opcode has more than two operands (30_encoding.md R45). -/
theorem Opcode.need_le_two (o : Opcode) : o.need ≤ 2 := by
  cases o <;> decide

/-- An instruction is its mnemonic with its operand bytes put in. -/
theorem Instr.length_operandBytes (i : Instr) : i.operandBytes.length = i.opcode.need := by
  rw [Opcode.need_eq_nopsColumn]
  cases i <;> rfl

@[simp] theorem Opcode.opcode_instr (o : Opcode) (a b : Byte) : (o.instr a b).opcode = o := by
  cases o <;> rfl

/-- Decoding begins with the opcode (40_dispatcher.md R62). -/
theorem decode_cons (op : Byte) (rest : List Byte) :
    decode (op :: rest) = match Opcode.ofByte op with
      | none => .error (.unknownOpcode op)
      | some o => decodeOperands o rest := rfl

/-- Everything operand fetch can answer (40_dispatcher.md R63). -/
theorem decodeOperands_cases (o : Opcode) (rest : List Byte) :
    (o.need = 0 ∧ decodeOperands o rest = .ok (o.instr 0 0, rest)) ∨
    (1 ≤ o.need ∧ rest = [] ∧ decodeOperands o rest = .error (.missingByte 1)) ∨
    (∃ a rest1, o.need = 1 ∧ rest = a :: rest1 ∧ decodeOperands o rest = .ok (o.instr a 0, rest1)) ∨
    (∃ a, o.need = 2 ∧ rest = [a] ∧ decodeOperands o rest = .error (.missingByte 2)) ∨
    (∃ a b rest2, o.need = 2 ∧ rest = a :: b :: rest2 ∧ decodeOperands o rest = .ok (o.instr a b, rest2)) := by
  have hle := o.need_le_two
  unfold decodeOperands
  split
  · next h0 => exact .inl ⟨h0, rfl⟩
  · next h0 =>
    match rest with
    | [] => exact .inr (.inl ⟨by omega, rfl, rfl⟩)
    | a :: rest1 =>
      by_cases h1 : o.need = 1
      · exact .inr (.inr (.inl ⟨a, rest1, h1, rfl, by simp [h1]⟩))
      · match rest1 with
        | [] => exact .inr (.inr (.inr (.inl ⟨a, by omega, rfl, by simp [h1]⟩)))
        | b :: rest2 => exact .inr (.inr (.inr (.inr ⟨a, b, rest2, by omega, rfl, by simp [h1]⟩)))

end Sys2Proof
end

