-- ==== Sys2Proof/Laws/State.lean ====
section
/-! SUPPORT. One lemma per field per state update, so that no later proof unfolds a record update. -/

namespace Sys2Proof.Machine

variable (s : State)

/-! ### `State.setPc` -/

@[simp] theorem State.setPc_pc (t : Word) : (s.setPc t).pc = t := rfl
@[simp] theorem State.setPc_fl (t : Word) : (s.setPc t).fl = s.fl := rfl
@[simp] theorem State.setPc_mem (t : Word) : (s.setPc t).mem = s.mem := rfl
@[simp] theorem State.setPc_status (t : Word) : (s.setPc t).status = s.status := rfl
@[simp] theorem State.setPc_out (t : Word) : (s.setPc t).out = s.out := rfl
@[simp] theorem State.setPc_x (t : Word) (k : Fin 8) : (s.setPc t).x k = s.x k := rfl
@[simp] theorem State.setPc_regs (t : Word) : (s.setPc t).regs = s.regs := rfl
@[simp] theorem State.setPc_sp (t : Word) : (s.setPc t).sp = s.sp := rfl

/-! ### `State.setFl` -/

@[simp] theorem State.setFl_pc (v : Word) : (s.setFl v).pc = s.pc := rfl
@[simp] theorem State.setFl_fl (v : Word) : (s.setFl v).fl = v := rfl
@[simp] theorem State.setFl_mem (v : Word) : (s.setFl v).mem = s.mem := rfl
@[simp] theorem State.setFl_status (v : Word) : (s.setFl v).status = s.status := rfl
@[simp] theorem State.setFl_out (v : Word) : (s.setFl v).out = s.out := rfl
@[simp] theorem State.setFl_x (v : Word) (k : Fin 8) : (s.setFl v).x k = s.x k := rfl
@[simp] theorem State.setFl_regs (v : Word) : (s.setFl v).regs = s.regs := rfl
@[simp] theorem State.setFl_sp (v : Word) : (s.setFl v).sp = s.sp := rfl

/-! ### `State.emit` -/

@[simp] theorem State.emit_pc (v : Word) : (s.emit v).pc = s.pc := rfl
@[simp] theorem State.emit_fl (v : Word) : (s.emit v).fl = s.fl := rfl
@[simp] theorem State.emit_mem (v : Word) : (s.emit v).mem = s.mem := rfl
@[simp] theorem State.emit_status (v : Word) : (s.emit v).status = s.status := rfl
@[simp] theorem State.emit_out (v : Word) : (s.emit v).out = s.out ++ [v] := rfl
@[simp] theorem State.emit_x (v : Word) (k : Fin 8) : (s.emit v).x k = s.x k := rfl
@[simp] theorem State.emit_regs (v : Word) : (s.emit v).regs = s.regs := rfl
@[simp] theorem State.emit_sp (v : Word) : (s.emit v).sp = s.sp := rfl

/-! ### `State.halt` -/

@[simp] theorem State.halt_pc : (s.halt).pc = s.pc := rfl
@[simp] theorem State.halt_fl : (s.halt).fl = s.fl := rfl
@[simp] theorem State.halt_mem : (s.halt).mem = s.mem := rfl
@[simp] theorem State.halt_status : (s.halt).status = .halted := rfl
@[simp] theorem State.halt_out : (s.halt).out = s.out := rfl
@[simp] theorem State.halt_x (k : Fin 8) : (s.halt).x k = s.x k := rfl
@[simp] theorem State.halt_regs : (s.halt).regs = s.regs := rfl
@[simp] theorem State.halt_sp : (s.halt).sp = s.sp := rfl

/-! ### `State.raise` -/

@[simp] theorem State.raise_pc (r : Raised) : (s.raise r).pc = s.pc := rfl
@[simp] theorem State.raise_fl (r : Raised) : (s.raise r).fl = s.fl := rfl
@[simp] theorem State.raise_mem (r : Raised) : (s.raise r).mem = s.mem := rfl
@[simp] theorem State.raise_status (r : Raised) : (s.raise r).status = .faulted r.cause r.info := rfl
@[simp] theorem State.raise_out (r : Raised) : (s.raise r).out = s.out := rfl
@[simp] theorem State.raise_x (r : Raised) (k : Fin 8) : (s.raise r).x k = s.x k := rfl
@[simp] theorem State.raise_regs (r : Raised) : (s.raise r).regs = s.regs := rfl
@[simp] theorem State.raise_sp (r : Raised) : (s.raise r).sp = s.sp := rfl

/-! ### `State.writeByte` -/

@[simp] theorem State.writeByte_pc (a : Word) (v : Byte) : (s.writeByte a v).pc = s.pc := rfl
@[simp] theorem State.writeByte_fl (a : Word) (v : Byte) : (s.writeByte a v).fl = s.fl := rfl
@[simp] theorem State.writeByte_mem (a : Word) (v : Byte) : (s.writeByte a v).mem = Memory.write s.mem a.toNat v := rfl
@[simp] theorem State.writeByte_status (a : Word) (v : Byte) : (s.writeByte a v).status = s.status := rfl
@[simp] theorem State.writeByte_out (a : Word) (v : Byte) : (s.writeByte a v).out = s.out := rfl
@[simp] theorem State.writeByte_x (a : Word) (v : Byte) (k : Fin 8) : (s.writeByte a v).x k = s.x k := rfl
@[simp] theorem State.writeByte_regs (a : Word) (v : Byte) : (s.writeByte a v).regs = s.regs := rfl
@[simp] theorem State.writeByte_sp (a : Word) (v : Byte) : (s.writeByte a v).sp = s.sp := rfl

/-! ### `State.setX` -/

@[simp] theorem State.setX_pc (i : Fin 8) (v : Word) : (s.setX i v).pc = s.pc := rfl
@[simp] theorem State.setX_fl (i : Fin 8) (v : Word) : (s.setX i v).fl = s.fl := rfl
@[simp] theorem State.setX_mem (i : Fin 8) (v : Word) : (s.setX i v).mem = s.mem := rfl
@[simp] theorem State.setX_status (i : Fin 8) (v : Word) : (s.setX i v).status = s.status := rfl
@[simp] theorem State.setX_out (i : Fin 8) (v : Word) : (s.setX i v).out = s.out := rfl

/-- A register reads as what was last written to it (10_state.md R11). -/
@[simp] theorem State.setX_x_same (i : Fin 8) (v : Word) : (s.setX i v).x i = v := by
  simp [State.setX, State.x]

/-- A register write leaves every other register alone (10_state.md R12). -/
@[simp] theorem State.setX_x_other (i k : Fin 8) (v : Word) (h : k ≠ i) : (s.setX i v).x k = s.x k := by
  have h' : i.val ≠ k.val := fun e => h (Fin.ext e.symm)
  simp [State.setX, State.x, h']

/-- Writing `SP` is writing register 7 (10_state.md R13). -/
theorem State.setSp_eq (v : Word) : s.setSp v = s.setX Config.spIndex v := rfl

/-- `SP` is register 7 (10_state.md R13). -/
theorem State.sp_eq : s.sp = s.x 7 := rfl

/-- Two states with the same value in every field are one state. -/
theorem State.ext_fields {s t : State} (hx : ∀ k, s.x k = t.x k) (hpc : s.pc = t.pc) (hfl : s.fl = t.fl)
    (hmem : s.mem = t.mem) (hstatus : s.status = t.status) (hout : s.out = t.out) : s = t := by
  have hregs : s.regs = t.regs := by
    apply Vector.ext
    intro i hi
    simpa [State.x] using hx ⟨i, hi⟩
  cases s
  cases t
  simp_all

end Sys2Proof.Machine
end

