-- ==== Sys2Proof/Laws/Ops.lean ====
section
/-! SUPPORT. For each shared operation, one lemma that says everything it can do. -/

namespace Sys2Proof.Machine

/-! ### Advancing `pc` and ending a step -/

/-- `pc` advances, or the one fault that comes after the effects is raised (40_dispatcher.md R66). -/
theorem State.advance_cases (s : State) (k : Nat) :
    (s.pc.toNat + k ≤ 255 ∧ s.advance k = s.setPc (narrow (s.pc.toNat + k))) ∨
    (255 < s.pc.toNat + k ∧ s.advance k = s.raise ⟨.pcAdvance, infoOfNat (s.pc.toNat + k)⟩) := by
  unfold State.advance State.pcPlus Config.topAddress
  split
  · next h => exact .inl ⟨h, rfl⟩
  · next h => exact .inr ⟨by omega, rfl⟩

theorem State.advance_of_le {s : State} {k : Nat} (h : s.pc.toNat + k ≤ 255) :
    s.advance k = s.setPc (narrow (s.pc.toNat + k)) := by
  rcases s.advance_cases k with ⟨-, e⟩ | ⟨h', -⟩
  · exact e
  · omega

theorem State.advance_of_gt {s : State} {k : Nat} (h : 255 < s.pc.toNat + k) :
    s.advance k = s.raise ⟨.pcAdvance, infoOfNat (s.pc.toNat + k)⟩ := by
  rcases s.advance_cases k with ⟨h', -⟩ | ⟨-, e⟩
  · omega
  · exact e

@[simp] theorem State.advance_x (s : State) (k : Nat) (i : Fin 8) : (s.advance k).x i = s.x i := by
  rcases s.advance_cases k with ⟨-, e⟩ | ⟨-, e⟩ <;> rw [e] <;> rfl

@[simp] theorem State.advance_fl (s : State) (k : Nat) : (s.advance k).fl = s.fl := by
  rcases s.advance_cases k with ⟨-, e⟩ | ⟨-, e⟩ <;> rw [e] <;> rfl

@[simp] theorem State.advance_mem (s : State) (k : Nat) : (s.advance k).mem = s.mem := by
  rcases s.advance_cases k with ⟨-, e⟩ | ⟨-, e⟩ <;> rw [e] <;> rfl

@[simp] theorem State.advance_out (s : State) (k : Nat) : (s.advance k).out = s.out := by
  rcases s.advance_cases k with ⟨-, e⟩ | ⟨-, e⟩ <;> rw [e] <;> rfl

/-- A narrowed address is the address when it fits. -/
theorem toNat_narrow_of_lt {n : Nat} (h : n < 256) : (narrow n).toNat = n := by
  simp [narrow, Nat.mod_eq_of_lt h]

/-- A register write keeps the value modulo 256 (41_alu.md R86). -/
@[simp] theorem toNat_narrow (n : Nat) : (narrow n).toNat = n % 256 := by simp [narrow]

@[simp] theorem finish_error (o : Opcode) (s : State) (r : Raised) : finish o s (.error r) = .next (s.raise r) := rfl

/-- The end of a step whose handler completed (40_dispatcher.md R66, R67). -/
theorem finish_ok (o : Opcode) (s t : State) :
    finish o s (.ok t) = .next (if selfposField o.byte then t else t.advance (nopsField o.byte + 1)) := rfl

/-- An auto-advancing instruction that completed advances `pc` by its length (40_dispatcher.md R66). -/
theorem finish_ok_auto {o : Opcode} (h : o.selfposColumn = false) (s t : State) :
    finish o s (.ok t) = .next (t.advance (o.nopsColumn + 1)) := by
  simp [finish_ok, h]

/-- A self-positioning instruction that completed has set `pc` itself (40_dispatcher.md R67). -/
theorem finish_ok_self {o : Opcode} (h : o.selfposColumn = true) (s t : State) :
    finish o s (.ok t) = .next t := by
  simp [finish_ok, h]

/-- The end of a step always answers a next state. -/
theorem finish_next (o : Opcode) (s : State) (h : Handled) : ∃ t, finish o s h = .next t := by
  cases h <;> exact ⟨_, rfl⟩

/-- Everything the end of a step can answer. -/
theorem finish_cases {o : Opcode} {s t : State} {h : Handled} (e : finish o s h = .next t) :
    (∃ r, h = .error r ∧ t = s.raise r) ∨
    (∃ u, h = .ok u ∧ selfposField o.byte = true ∧ t = u) ∨
    (∃ u, h = .ok u ∧ selfposField o.byte = false ∧ t = u.advance (nopsField o.byte + 1)) := by
  cases h with
  | error r => exact .inl ⟨r, rfl, by simpa using e.symm⟩
  | ok u =>
    rw [finish_ok] at e
    cases hs : selfposField o.byte with
    | true => exact .inr (.inl ⟨u, rfl, rfl, by simpa [hs] using e.symm⟩)
    | false => exact .inr (.inr ⟨u, rfl, rfl, by simpa [hs] using e.symm⟩)

/-! ### Register operands -/

@[simp] theorem toNat_regByte (i : Fin 8) : (regByte i).toNat = i.val := by
  have := i.isLt
  simp only [regByte, BitVec.toNat_ofNat]
  omega

/-- A byte in 0..7 is used as that register's index (40_dispatcher.md R64). -/
@[simp] theorem withReg_regByte (i : Fin 8) (k : Fin 8 → Handled) : withReg (regByte i) k = k i := by
  unfold withReg
  rw [dif_pos (by simp [i.isLt])]
  congr 1
  exact Fin.ext (toNat_regByte i)

/-- A byte above 7 raises `RegIndexFault` (60_exceptions.md R116). -/
theorem withReg_above {a : Byte} (h : 7 < a.toNat) (k : Fin 8 → Handled) :
    withReg a k = .error ⟨.regIndex, infoOfByte a⟩ := by
  unfold withReg
  rw [dif_neg (by omega)]

/-- A byte up to 7 is the operand byte of some register. -/
theorem exists_regByte {a : Byte} (h : a.toNat < 8) : ∃ i, a = regByte i :=
  ⟨⟨a.toNat, h⟩, BitVec.eq_of_toNat_eq (by simp)⟩

/-- Everything a register operand can lead to. -/
theorem withReg_cases (a : Byte) (k : Fin 8 → Handled) :
    (∃ i, a = regByte i ∧ withReg a k = k i) ∨
    (7 < a.toNat ∧ withReg a k = .error ⟨.regIndex, infoOfByte a⟩) := by
  by_cases h : a.toNat < 8
  · obtain ⟨i, rfl⟩ := exists_regByte h
    exact .inl ⟨i, rfl, withReg_regByte i k⟩
  · exact .inr ⟨by omega, withReg_above (by omega) k⟩

/-- Everything two register operands can lead to: `a` is checked first, then `b` (40_dispatcher.md R64). -/
theorem withRegs_cases (a b : Byte) (k : Fin 8 → Fin 8 → Handled) :
    (∃ i j, a = regByte i ∧ b = regByte j ∧ withRegs a b k = k i j) ∨
    (7 < a.toNat ∧ withRegs a b k = .error ⟨.regIndex, infoOfByte a⟩) ∨
    (a.toNat < 8 ∧ 7 < b.toNat ∧ withRegs a b k = .error ⟨.regIndex, infoOfByte b⟩) := by
  unfold withRegs
  rcases withReg_cases a (fun i => withReg b (fun j => k i j)) with ⟨i, ha, e⟩ | ⟨ha, e⟩
  · rcases withReg_cases b (fun j => k i j) with ⟨j, hb, e'⟩ | ⟨hb, e'⟩
    · exact .inl ⟨i, j, ha, hb, e.trans e'⟩
    · exact .inr (.inr ⟨by subst ha; simp [i.isLt], hb, e.trans e'⟩)
  · exact .inr (.inl ⟨ha, e⟩)

@[simp] theorem withRegs_regByte (i j : Fin 8) (k : Fin 8 → Fin 8 → Handled) :
    withRegs (regByte i) (regByte j) k = k i j := by simp [withRegs]

/-! ### Flags -/

/-- A compare gives exactly one of the three outcomes (41_alu.md R85). -/
theorem compareFlags_cases (va vb : Word) :
    (va = vb ∧ compareFlags va vb = flagE) ∨
    (vb.toNat < va.toNat ∧ compareFlags va vb = flagG) ∨
    (va.toNat < vb.toNat ∧ compareFlags va vb = flagL) := by
  unfold compareFlags
  split
  · next h => exact .inl ⟨h, rfl⟩
  · next h =>
    have hne : va.toNat ≠ vb.toNat := fun e => h (BitVec.eq_of_toNat_eq e)
    split
    · next hg => exact .inr (.inl ⟨hg, rfl⟩)
    · next hg => exact .inr (.inr ⟨by omega, rfl⟩)

/-- The conditional jumps compare the whole register with `0x01` (42_stack_control.md R95). -/
theorem State.flagsEqual_iff (s : State) : s.flagsEqual = true ↔ s.fl = 0x01 := by
  simp [State.flagsEqual, flagE]

/-! ### The status ports -/

@[simp] theorem Status.stateField_faulted (c : FaultCause) (info : Info) : (Status.faulted c info).stateField = 3 := rfl
@[simp] theorem Status.causeField_faulted (c : FaultCause) (info : Info) : (Status.faulted c info).causeField = c.code := rfl
@[simp] theorem Status.infoField_faulted (c : FaultCause) (info : Info) : (Status.faulted c info).infoField = info := rfl
@[simp] theorem Status.exitStatus_faulted (c : FaultCause) (info : Info) : (Status.faulted c info).exitStatus = some 1 := rfl
@[simp] theorem Status.exitStatus_halted : Status.halted.exitStatus = some 0 := rfl

end Sys2Proof.Machine
end

