-- ==== Sys2Proof/Laws/Exec.lean ====
section
/-! SUPPORT. What the ALU dispatch, the stack operations, the jumps and the step can do. -/

namespace Sys2Proof.Machine

/-! ### The ALU dispatch (41_alu.md R75, R87) -/

theorem aluExecute_add (a b : Byte) (s : State) : aluExecute Opcode.add.byte a b s = aluAdd a b s := by
  simp [aluExecute]

theorem aluExecute_mult (a b : Byte) (s : State) : aluExecute Opcode.mult.byte a b s = aluMult a b s := by
  simp [aluExecute]

theorem aluExecute_mod (a b : Byte) (s : State) : aluExecute Opcode.mod.byte a b s = aluMod a b s := by
  simp [aluExecute]

theorem aluExecute_cmp (a b : Byte) (s : State) : aluExecute Opcode.cmp.byte a b s = aluCmp a b s := by
  simp [aluExecute]

theorem aluExecute_and (a b : Byte) (s : State) : aluExecute Opcode.and.byte a b s = aluAnd a b s := by
  simp [aluExecute]

theorem aluExecute_not (a b : Byte) (s : State) : aluExecute Opcode.not.byte a b s = aluNot a b s := by
  simp [aluExecute]

theorem aluExecute_or (a b : Byte) (s : State) : aluExecute Opcode.or.byte a b s = aluOr a b s := by
  simp [aluExecute]

theorem aluExecute_xor (a b : Byte) (s : State) : aluExecute Opcode.xor.byte a b s = aluXor a b s := by
  simp [aluExecute]

theorem aluExecute_shl (a b : Byte) (s : State) : aluExecute Opcode.shl.byte a b s = aluShl a b s := by
  simp [aluExecute]

theorem aluExecute_shr (a b : Byte) (s : State) : aluExecute Opcode.shr.byte a b s = aluShr a b s := by
  simp [aluExecute]

/-- Everything a two-register operation that writes its first register can do (41_alu.md R86). -/
theorem writeFromBoth_cases (f : Nat → Nat → Nat) (a b : Byte) (s : State) :
    (∃ i j, a = regByte i ∧ b = regByte j ∧
      writeFromBoth f a b s = .ok (s.setX i (narrow (f (s.x i).toNat (s.x j).toNat)))) ∨
    (7 < a.toNat ∧ writeFromBoth f a b s = .error ⟨.regIndex, infoOfByte a⟩) ∨
    (a.toNat < 8 ∧ 7 < b.toNat ∧ writeFromBoth f a b s = .error ⟨.regIndex, infoOfByte b⟩) :=
  withRegs_cases a b _

/-! ### The stack (42_stack_control.md R97) -/

@[simp] theorem State.decSp_sp (s : State) : s.decSp.sp = s.sp - 1 := by
  simp [State.decSp, State.setSp, State.sp]

@[simp] theorem State.incSp_sp (s : State) : s.incSp.sp = s.sp + 1 := by
  simp [State.incSp, State.setSp, State.sp]

theorem State.decSp_x_other (s : State) (k : Fin 8) (h : k ≠ 7) : s.decSp.x k = s.x k := by
  simp [State.decSp, State.setSp, Config.spIndex, h]

theorem State.incSp_x_other (s : State) (k : Fin 8) (h : k ≠ 7) : s.incSp.x k = s.x k := by
  simp [State.incSp, State.setSp, Config.spIndex, h]

@[simp] theorem State.decSp_pc (s : State) : s.decSp.pc = s.pc := rfl
@[simp] theorem State.decSp_fl (s : State) : s.decSp.fl = s.fl := rfl
@[simp] theorem State.decSp_mem (s : State) : s.decSp.mem = s.mem := rfl
@[simp] theorem State.decSp_status (s : State) : s.decSp.status = s.status := rfl
@[simp] theorem State.decSp_out (s : State) : s.decSp.out = s.out := rfl
@[simp] theorem State.incSp_pc (s : State) : s.incSp.pc = s.pc := rfl
@[simp] theorem State.incSp_fl (s : State) : s.incSp.fl = s.fl := rfl
@[simp] theorem State.incSp_mem (s : State) : s.incSp.mem = s.mem := rfl
@[simp] theorem State.incSp_status (s : State) : s.incSp.status = s.status := rfl
@[simp] theorem State.incSp_out (s : State) : s.incSp.out = s.out := rfl
@[simp] theorem State.storeAtSp_x (s : State) (v : Byte) (k : Fin 8) : (s.storeAtSp v).x k = s.x k := rfl
@[simp] theorem State.storeAtSp_pc (s : State) (v : Byte) : (s.storeAtSp v).pc = s.pc := rfl
@[simp] theorem State.storeAtSp_fl (s : State) (v : Byte) : (s.storeAtSp v).fl = s.fl := rfl
@[simp] theorem State.storeAtSp_status (s : State) (v : Byte) : (s.storeAtSp v).status = s.status := rfl
@[simp] theorem State.storeAtSp_out (s : State) (v : Byte) : (s.storeAtSp v).out = s.out := rfl
@[simp] theorem State.storeAtSp_mem (s : State) (v : Byte) :
    (s.storeAtSp v).mem = Memory.write s.mem s.sp.toNat v := rfl

/-! ### Jumps -/

/-- Everything a taken jump can do (42_stack_control.md R94). -/
theorem jumpTo_cases (a : Byte) (s : State) :
    (∃ i, a = regByte i ∧ jumpTo a s = .ok (s.setPc (s.x i))) ∨
    (7 < a.toNat ∧ jumpTo a s = .error ⟨.regIndex, infoOfByte a⟩) :=
  withReg_cases a _

/-- Everything a jump that is not taken can do (42_stack_control.md R95). -/
theorem fallThrough_cases (s : State) :
    (s.pc.toNat + 2 ≤ 255 ∧ fallThrough s = .ok (s.setPc (narrow (s.pc.toNat + 2)))) ∨
    (255 < s.pc.toNat + 2 ∧ fallThrough s = .error ⟨.pcAdvance, infoOfNat (s.pc.toNat + 2)⟩) := by
  unfold fallThrough State.pcPlus Config.topAddress
  split
  · next h => exact .inl ⟨h, rfl⟩
  · next h => exact .inr ⟨by omega, rfl⟩

/-- Everything the handler of CALL can do (42_stack_control.md R92). -/
theorem handleCall_cases (a : Byte) (s : State) :
    (∃ i, a = regByte i ∧ s.pc.toNat + 2 ≤ 255 ∧ handleCall a s =
      .ok ((s.decSp.storeAtSp (narrow (s.pc.toNat + 2))).setPc (s.decSp.x i))) ∨
    (∃ i, a = regByte i ∧ 255 < s.pc.toNat + 2 ∧
      handleCall a s = .error ⟨.returnAddress, infoOfNat (s.pc.toNat + 2)⟩) ∨
    (7 < a.toNat ∧ handleCall a s = .error ⟨.regIndex, infoOfByte a⟩) := by
  unfold handleCall
  rcases withReg_cases a _ with ⟨i, ha, e⟩ | ⟨ha, e⟩
  · rw [e]
    split
    · next h => exact .inl ⟨i, ha, h, rfl⟩
    · next h => exact .inr (.inl ⟨i, ha, Nat.lt_of_not_le h, rfl⟩)
  · exact .inr (.inr ⟨ha, e⟩)

/-! ### Each meaning as the end of a step over its handler -/

theorem exec_nop (s : State) : exec .nop s = finish .nop s (.ok s) := rfl
theorem exec_halt (s : State) : exec .halt s = .next s.halt := rfl
theorem exec_ret (s : State) : exec .ret s = finish .ret s (handleRet s) := rfl
theorem exec_push (a : Byte) (s : State) : exec (.push a) s = finish .push s (handlePush a s) := rfl
theorem exec_pop (a : Byte) (s : State) : exec (.pop a) s = finish .pop s (handlePop a s) := rfl
theorem exec_prn (a : Byte) (s : State) : exec (.prn a) s = finish .prn s (handlePrn a s) := rfl
theorem exec_call (a : Byte) (s : State) : exec (.call a) s = finish .call s (handleCall a s) := rfl
theorem exec_jmp (a : Byte) (s : State) : exec (.jmp a) s = finish .jmp s (jumpTo a s) := rfl
theorem exec_ldi (a imm : Byte) (s : State) : exec (.ldi a imm) s = finish .ldi s (handleLdi a imm s) := rfl

theorem exec_jeq (a : Byte) (s : State) :
    exec (.jeq a) s = finish .jeq s (if s.flagsEqual then jumpTo a s else fallThrough s) := rfl

theorem exec_jne (a : Byte) (s : State) :
    exec (.jne a) s = finish .jne s (if s.flagsEqual then fallThrough s else jumpTo a s) := rfl

theorem exec_add (a b : Byte) (s : State) : exec (.add a b) s = finish .add s (aluAdd a b s) := by
  simp only [exec, execAdd, aluExecute_add]

theorem exec_mult (a b : Byte) (s : State) : exec (.mult a b) s = finish .mult s (aluMult a b s) := by
  simp only [exec, execMult, aluExecute_mult]

theorem exec_mod (a b : Byte) (s : State) : exec (.mod a b) s = finish .mod s (aluMod a b s) := by
  simp only [exec, execMod, aluExecute_mod]

theorem exec_cmp (a b : Byte) (s : State) : exec (.cmp a b) s = finish .cmp s (aluCmp a b s) := by
  simp only [exec, execCmp, aluExecute_cmp]

theorem exec_and (a b : Byte) (s : State) : exec (.and a b) s = finish .and s (aluAnd a b s) := by
  simp only [exec, execAnd, aluExecute_and]

theorem exec_not (a b : Byte) (s : State) : exec (.not a b) s = finish .not s (aluNot a b s) := by
  simp only [exec, execNot, aluExecute_not]

theorem exec_or (a b : Byte) (s : State) : exec (.or a b) s = finish .or s (aluOr a b s) := by
  simp only [exec, execOr, aluExecute_or]

theorem exec_xor (a b : Byte) (s : State) : exec (.xor a b) s = finish .xor s (aluXor a b s) := by
  simp only [exec, execXor, aluExecute_xor]

theorem exec_shl (a b : Byte) (s : State) : exec (.shl a b) s = finish .shl s (aluShl a b s) := by
  simp only [exec, execShl, aluExecute_shl]

theorem exec_shr (a b : Byte) (s : State) : exec (.shr a b) s = finish .shr s (aluShr a b s) := by
  simp only [exec, execShr, aluExecute_shr]

/-! ### The step -/

/-- While not Running no step is taken (40_dispatcher.md R60). -/
theorem step_of_not_running {s : State} (h : s.status ≠ .running) : step s = .next s := by
  unfold step
  split
  · contradiction
  all_goals rfl

/-- A step whose bytes decode runs the instruction. -/
theorem step_of_decode {s : State} (h : s.status = .running) {i : Instr} {rest : List Byte}
    (hd : decode s.fetchBytes = .ok (i, rest)) : step s = exec i s := by
  unfold step
  rw [h, hd]

/-- A step whose bytes do not decode takes the fetch fault. -/
theorem step_of_decode_error {s : State} (h : s.status = .running) {e : DecodeError}
    (hd : decode s.fetchBytes = .error e) : step s = .next (s.raise (s.fetchFault e)) := by
  unfold step
  rw [h, hd]

/-- Everything a step can do: nothing, run a decoded instruction, or take a fetch fault. -/
theorem step_cases {s t : State} (h : step s = .next t) :
    (s.status ≠ .running ∧ t = s) ∨
    (s.status = .running ∧ ∃ i rest, decode s.fetchBytes = .ok (i, rest) ∧ exec i s = .next t) ∨
    (s.status = .running ∧ ∃ e, decode s.fetchBytes = .error e ∧ t = s.raise (s.fetchFault e)) := by
  by_cases hr : s.status = .running
  · cases hd : decode s.fetchBytes with
    | ok p =>
      obtain ⟨i, rest⟩ := p
      rw [step_of_decode hr hd] at h
      exact .inr (.inl ⟨hr, i, rest, rfl, h⟩)
    | error e =>
      rw [step_of_decode_error hr hd] at h
      exact .inr (.inr ⟨hr, e, rfl, by simpa using h.symm⟩)
  · rw [step_of_not_running hr] at h
    exact .inl ⟨hr, by simpa using h.symm⟩

end Sys2Proof.Machine
end

