-- ==== Sys2Proof/Laws/Cases.lean ====
section
/-! SUPPORT. One inversion lemma per instruction: everything it can do when `exec` answers a next state. -/

namespace Sys2Proof.Machine

/-- A register write followed by the advance, or a precise `RegIndexFault`. -/
theorem writeFromBoth_next {f : Nat → Nat → Nat} {o : Opcode} (ho : o.selfposColumn = false) {a b : Byte} {s t : State}
    (e : finish o s (writeFromBoth f a b s) = .next t) :
    (∃ i j, a = regByte i ∧ b = regByte j ∧
      t = (s.setX i (narrow (f (s.x i).toNat (s.x j).toNat))).advance (o.nopsColumn + 1)) ∨
    (∃ c : Byte, (c = a ∨ a.toNat < 8 ∧ c = b) ∧ 7 < c.toNat ∧ t = s.raise ⟨.regIndex, infoOfByte c⟩) := by
  rcases writeFromBoth_cases f a b s with ⟨i, j, ha, hb, h⟩ | ⟨hc, h⟩ | ⟨ha, hc, h⟩ <;> rw [h] at e
  · rw [finish_ok_auto ho] at e
    exact .inl ⟨i, j, ha, hb, by simpa using e.symm⟩
  · exact .inr ⟨_, .inl rfl, hc, by simpa using e.symm⟩
  · exact .inr ⟨_, .inr ⟨ha, rfl⟩, hc, by simpa using e.symm⟩

/-- ADD, MULT, AND, OR, XOR, SHL and SHR all are such a register write (41_alu.md R88). -/
theorem exec_binary_next {i : Instr} {a b : Byte} {s t : State}
    (hi : i = .add a b ∨ i = .mult a b ∨ i = .and a b ∨ i = .or a b ∨ i = .xor a b ∨ i = .shl a b ∨ i = .shr a b)
    (e : exec i s = .next t) :
    (∃ d v, a = regByte d ∧ t = (s.setX d v).advance 3) ∨
    (∃ c : Byte, (c = a ∨ a.toNat < 8 ∧ c = b) ∧ 7 < c.toNat ∧ t = s.raise ⟨.regIndex, infoOfByte c⟩) := by
  have key : ∀ {o : Opcode} {f}, o.selfposColumn = false → o.nopsColumn = 2 →
      finish o s (writeFromBoth f a b s) = .next t →
      (∃ d v, a = regByte d ∧ t = (s.setX d v).advance 3) ∨
      (∃ c : Byte, (c = a ∨ a.toNat < 8 ∧ c = b) ∧ 7 < c.toNat ∧ t = s.raise ⟨.regIndex, infoOfByte c⟩) := by
    intro o f ho hn e
    rcases writeFromBoth_next ho e with ⟨i, j, ha, -, h⟩ | h
    · exact .inl ⟨i, _, ha, by rw [h, hn]⟩
    · exact .inr h
  obtain rfl | rfl | rfl | rfl | rfl | rfl | rfl := hi
  · rw [exec_add] at e; exact key rfl rfl e
  · rw [exec_mult] at e; exact key rfl rfl e
  · rw [exec_and] at e; exact key rfl rfl e
  · rw [exec_or] at e; exact key rfl rfl e
  · rw [exec_xor] at e; exact key rfl rfl e
  · rw [exec_shl] at e; exact key rfl rfl e
  · rw [exec_shr] at e; exact key rfl rfl e

theorem exec_nop_next {s t : State} (e : exec .nop s = .next t) : t = s.advance 1 := by
  rw [exec_nop, finish_ok_auto rfl] at e
  simpa [Opcode.nopsColumn] using e.symm

theorem exec_halt_next {s t : State} (e : exec .halt s = .next t) : t = s.halt := by
  simpa [exec_halt] using e.symm

theorem exec_ret_next {s t : State} (e : exec .ret s = .next t) : t = (s.setPc (s.readByte s.sp)).incSp := by
  rw [exec_ret, handleRet, finish_ok_self rfl] at e
  simpa using e.symm

/-- A one-register handler followed by the advance, or a precise `RegIndexFault`. -/
theorem withReg_auto_next {o : Opcode} (ho : o.selfposColumn = false) {a : Byte} {s t : State} {k : Fin 8 → State}
    (e : finish o s (withReg a (fun i => .ok (k i))) = .next t) :
    (∃ i, a = regByte i ∧ t = (k i).advance (o.nopsColumn + 1)) ∨
    (7 < a.toNat ∧ t = s.raise ⟨.regIndex, infoOfByte a⟩) := by
  rcases withReg_cases a (fun i => .ok (k i)) with ⟨i, ha, h⟩ | ⟨ha, h⟩ <;> rw [h] at e
  · rw [finish_ok_auto ho] at e
    exact .inl ⟨i, ha, by simpa using e.symm⟩
  · exact .inr ⟨ha, by simpa using e.symm⟩

theorem exec_push_next {a : Byte} {s t : State} (e : exec (.push a) s = .next t) :
    (∃ i, a = regByte i ∧ t = (s.decSp.storeAtSp (s.decSp.x i)).advance 2) ∨
    (7 < a.toNat ∧ t = s.raise ⟨.regIndex, infoOfByte a⟩) :=
  withReg_auto_next (o := .push) rfl e

theorem exec_pop_next {a : Byte} {s t : State} (e : exec (.pop a) s = .next t) :
    (∃ i, a = regByte i ∧ t = (s.setX i (s.readByte s.sp)).incSp.advance 2) ∨
    (7 < a.toNat ∧ t = s.raise ⟨.regIndex, infoOfByte a⟩) :=
  withReg_auto_next (o := .pop) rfl e

theorem exec_prn_next {a : Byte} {s t : State} (e : exec (.prn a) s = .next t) :
    (∃ i, a = regByte i ∧ t = (s.emit (s.x i)).advance 2) ∨
    (7 < a.toNat ∧ t = s.raise ⟨.regIndex, infoOfByte a⟩) :=
  withReg_auto_next (o := .prn) rfl e

theorem exec_ldi_next {a imm : Byte} {s t : State} (e : exec (.ldi a imm) s = .next t) :
    (∃ i, a = regByte i ∧ t = (s.setX i imm).advance 3) ∨
    (7 < a.toNat ∧ t = s.raise ⟨.regIndex, infoOfByte a⟩) :=
  withReg_auto_next (o := .ldi) rfl e

theorem exec_not_next {a b : Byte} {s t : State} (e : exec (.not a b) s = .next t) :
    (∃ i, a = regByte i ∧ t = (s.setX i (~~~ (s.x i))).advance 3) ∨
    (7 < a.toNat ∧ t = s.raise ⟨.regIndex, infoOfByte a⟩) := by
  rw [exec_not] at e
  exact withReg_auto_next (o := .not) rfl e

theorem exec_cmp_next {a b : Byte} {s t : State} (e : exec (.cmp a b) s = .next t) :
    (∃ i j, a = regByte i ∧ b = regByte j ∧ t = (s.setFl (compareFlags (s.x i) (s.x j))).advance 3) ∨
    (∃ c : Byte, (c = a ∨ a.toNat < 8 ∧ c = b) ∧ 7 < c.toNat ∧ t = s.raise ⟨.regIndex, infoOfByte c⟩) := by
  rw [exec_cmp, aluCmp] at e
  rcases withRegs_cases a b (fun i j => .ok (s.setFl (compareFlags (s.x i) (s.x j)))) with
    ⟨i, j, ha, hb, h⟩ | ⟨hc, h⟩ | ⟨ha, hc, h⟩ <;> rw [h] at e
  · rw [finish_ok_auto rfl] at e
    exact .inl ⟨i, j, ha, hb, by simpa [Opcode.nopsColumn] using e.symm⟩
  · exact .inr ⟨_, .inl rfl, hc, by simpa using e.symm⟩
  · exact .inr ⟨_, .inr ⟨ha, rfl⟩, hc, by simpa using e.symm⟩

theorem exec_mod_next {a b : Byte} {s t : State} (e : exec (.mod a b) s = .next t) :
    (∃ i j, a = regByte i ∧ b = regByte j ∧ s.x j ≠ 0 ∧
      t = (s.setX i (narrow ((s.x i).toNat % (s.x j).toNat))).advance 3) ∨
    (∃ i j, a = regByte i ∧ b = regByte j ∧ s.x j = 0 ∧ t = s.raise ⟨.divideByZero, infoOfByte b⟩) ∨
    (∃ c : Byte, (c = a ∨ a.toNat < 8 ∧ c = b) ∧ 7 < c.toNat ∧ t = s.raise ⟨.regIndex, infoOfByte c⟩) := by
  rw [exec_mod, aluMod] at e
  rcases withRegs_cases a b (fun i j => if s.x j = 0 then .error ⟨.divideByZero, infoOfByte b⟩
      else .ok (s.setX i (narrow ((s.x i).toNat % (s.x j).toNat)))) with
    ⟨i, j, ha, hb, h⟩ | ⟨hc, h⟩ | ⟨ha, hc, h⟩ <;> rw [h] at e
  · split at e
    · next hz => exact .inr (.inl ⟨i, j, ha, hb, hz, by simpa using e.symm⟩)
    · next hz =>
      rw [finish_ok_auto rfl] at e
      exact .inl ⟨i, j, ha, hb, hz, by simpa [Opcode.nopsColumn] using e.symm⟩
  · exact .inr (.inr ⟨_, .inl rfl, hc, by simpa using e.symm⟩)
  · exact .inr (.inr ⟨_, .inr ⟨ha, rfl⟩, hc, by simpa using e.symm⟩)

theorem jumpTo_next {o : Opcode} (ho : o.selfposColumn = true) {a : Byte} {s t : State}
    (e : finish o s (jumpTo a s) = .next t) :
    (∃ i, a = regByte i ∧ t = s.setPc (s.x i)) ∨ (7 < a.toNat ∧ t = s.raise ⟨.regIndex, infoOfByte a⟩) := by
  rcases jumpTo_cases a s with ⟨i, ha, h⟩ | ⟨ha, h⟩ <;> rw [h] at e
  · rw [finish_ok_self ho] at e
    exact .inl ⟨i, ha, by simpa using e.symm⟩
  · exact .inr ⟨ha, by simpa using e.symm⟩

theorem fallThrough_next {o : Opcode} (ho : o.selfposColumn = true) {s t : State}
    (e : finish o s (fallThrough s) = .next t) :
    (s.pc.toNat + 2 ≤ 255 ∧ t = s.setPc (narrow (s.pc.toNat + 2))) ∨
    (255 < s.pc.toNat + 2 ∧ t = s.raise ⟨.pcAdvance, infoOfNat (s.pc.toNat + 2)⟩) := by
  rcases fallThrough_cases s with ⟨hp, h⟩ | ⟨hp, h⟩ <;> rw [h] at e
  · rw [finish_ok_self ho] at e
    exact .inl ⟨hp, by simpa using e.symm⟩
  · exact .inr ⟨hp, by simpa using e.symm⟩

theorem exec_jmp_next {a : Byte} {s t : State} (e : exec (.jmp a) s = .next t) :
    (∃ i, a = regByte i ∧ t = s.setPc (s.x i)) ∨ (7 < a.toNat ∧ t = s.raise ⟨.regIndex, infoOfByte a⟩) :=
  jumpTo_next (o := .jmp) rfl e

theorem exec_jeq_next {a : Byte} {s t : State} (e : exec (.jeq a) s = .next t) :
    (s.fl = 0x01 ∧ ∃ i, a = regByte i ∧ t = s.setPc (s.x i)) ∨
    (s.fl = 0x01 ∧ 7 < a.toNat ∧ t = s.raise ⟨.regIndex, infoOfByte a⟩) ∨
    (s.fl ≠ 0x01 ∧ s.pc.toNat + 2 ≤ 255 ∧ t = s.setPc (narrow (s.pc.toNat + 2))) ∨
    (s.fl ≠ 0x01 ∧ 255 < s.pc.toNat + 2 ∧ t = s.raise ⟨.pcAdvance, infoOfNat (s.pc.toNat + 2)⟩) := by
  have hfl := s.flagsEqual_iff
  rw [exec_jeq] at e
  split at e
  · next h =>
    rcases jumpTo_next rfl e with h' | h'
    · exact .inl ⟨hfl.1 h, h'⟩
    · exact .inr (.inl ⟨hfl.1 h, h'⟩)
  · next h =>
    have hne : s.fl ≠ 0x01 := fun h' => h (hfl.2 h')
    rcases fallThrough_next rfl e with h' | h'
    · exact .inr (.inr (.inl ⟨hne, h'⟩))
    · exact .inr (.inr (.inr ⟨hne, h'⟩))

theorem exec_jne_next {a : Byte} {s t : State} (e : exec (.jne a) s = .next t) :
    (s.fl ≠ 0x01 ∧ ∃ i, a = regByte i ∧ t = s.setPc (s.x i)) ∨
    (s.fl ≠ 0x01 ∧ 7 < a.toNat ∧ t = s.raise ⟨.regIndex, infoOfByte a⟩) ∨
    (s.fl = 0x01 ∧ s.pc.toNat + 2 ≤ 255 ∧ t = s.setPc (narrow (s.pc.toNat + 2))) ∨
    (s.fl = 0x01 ∧ 255 < s.pc.toNat + 2 ∧ t = s.raise ⟨.pcAdvance, infoOfNat (s.pc.toNat + 2)⟩) := by
  have hfl := s.flagsEqual_iff
  rw [exec_jne] at e
  split at e
  · next h =>
    rcases fallThrough_next rfl e with h' | h'
    · exact .inr (.inr (.inl ⟨hfl.1 h, h'⟩))
    · exact .inr (.inr (.inr ⟨hfl.1 h, h'⟩))
  · next h =>
    have hne : s.fl ≠ 0x01 := fun h' => h (hfl.2 h')
    rcases jumpTo_next rfl e with h' | h'
    · exact .inl ⟨hne, h'⟩
    · exact .inr (.inl ⟨hne, h'⟩)

theorem exec_call_next {a : Byte} {s t : State} (e : exec (.call a) s = .next t) :
    (∃ i, a = regByte i ∧ s.pc.toNat + 2 ≤ 255 ∧
      t = (s.decSp.storeAtSp (narrow (s.pc.toNat + 2))).setPc (s.decSp.x i)) ∨
    (∃ i, a = regByte i ∧ 255 < s.pc.toNat + 2 ∧ t = s.raise ⟨.returnAddress, infoOfNat (s.pc.toNat + 2)⟩) ∨
    (7 < a.toNat ∧ t = s.raise ⟨.regIndex, infoOfByte a⟩) := by
  rw [exec_call] at e
  rcases handleCall_cases a s with ⟨i, ha, hp, h⟩ | ⟨i, ha, hp, h⟩ | ⟨ha, h⟩ <;> rw [h] at e
  · rw [finish_ok_self rfl] at e
    exact .inl ⟨i, ha, hp, by simpa using e.symm⟩
  · exact .inr (.inl ⟨i, ha, hp, by simpa using e.symm⟩)
  · exact .inr (.inr ⟨ha, by simpa using e.symm⟩)

end Sys2Proof.Machine
end

