-- ==== Sys2Proof/Laws/Outcome.lean ====
section
/-! SUPPORT. Everything `exec` can do to the parts of the state that the rules of the whole machine speak of: said
once, for all instructions. -/

namespace Sys2Proof.Machine

/-- The faults an instruction raises before any effect, and JEQ's and JNE's fall-through fault (60_exceptions.md R117).
Only an ill-formed instruction raises `RegIndexFault`, and the byte is one of its operands. -/
def RaisesEarly (i : Instr) (s : State) (r : Raised) : Prop :=
  (i.wellFormed = false ∧ ∃ c ∈ i.operandBytes, 7 < c.toNat ∧ r = ⟨.regIndex, infoOfByte c⟩) ∨
  (∃ d j, i = .mod (regByte d) (regByte j) ∧ s.x j = 0 ∧ r = ⟨.divideByZero, infoOfByte (regByte j)⟩) ∨
  (i.opcode = .call ∧ 255 < s.pc.toNat + 2 ∧ r = ⟨.returnAddress, infoOfNat (s.pc.toNat + 2)⟩) ∨
  ((i.opcode = .jeq ∨ i.opcode = .jne) ∧ 255 < s.pc.toNat + 2 ∧ r = ⟨.pcAdvance, infoOfNat (s.pc.toNat + 2)⟩)

/-- A self-positioning instruction that completed: memory changes only if it is CALL. -/
def Positioned (i : Instr) (s t : State) : Prop :=
  i.opcode.selfposColumn = true ∧ t.status = s.status ∧ t.out = s.out ∧ t.fl = s.fl ∧
  (t.mem = s.mem ∨ ∃ (b : Byte) (a v : Word), i = .call b ∧ t.mem = (s.writeByte a v).mem)

/-- An auto-advancing instruction whose handler completed in `u`: output only by PRN, flags only by CMP, memory only by
PUSH. -/
def Advanced (i : Instr) (s u t : State) : Prop :=
  i ≠ .halt ∧ i.opcode.selfposColumn = false ∧ t = u.advance (i.opcode.nopsColumn + 1) ∧
  u.pc = s.pc ∧ u.status = s.status ∧
  (u.out = s.out ∨ ∃ k, i = .prn (regByte k) ∧ u.out = s.out ++ [s.x k]) ∧
  (u.fl = s.fl ∨ ∃ x y, i.opcode = .cmp ∧ u.fl = compareFlags x y) ∧
  (u.mem = s.mem ∨ ∃ (b : Byte) (a v : Word), i = .push b ∧ u.mem = (s.writeByte a v).mem)

/-- What `exec` can answer. -/
def ExecOutcome (i : Instr) (s t : State) : Prop :=
  (i = .halt ∧ t = s.halt) ∨ (∃ r, t = s.raise r ∧ RaisesEarly i s r) ∨ Positioned i s t ∨ (∃ u, Advanced i s u t)

theorem isRegIndex_eq_false {c : Byte} (hc : 7 < c.toNat) : isRegIndex c = false := by
  simp only [isRegIndex, decide_eq_false_iff_not]
  omega

theorem ExecOutcome.of_regIndex {i : Instr} {s t : State} {c : Byte} (hw : isRegIndex c = false → i.wellFormed = false)
    (hm : c ∈ i.operandBytes) (hc : 7 < c.toNat) (h : t = s.raise ⟨.regIndex, infoOfByte c⟩) : ExecOutcome i s t :=
  .inr (.inl ⟨_, h, .inl ⟨hw (isRegIndex_eq_false hc), c, hm, hc, rfl⟩⟩)

/-- The same for an instruction whose two operand bytes are both register indices. -/
theorem ExecOutcome.of_regIndex_two {i : Instr} {s t : State} {a b c : Byte}
    (hw : i.wellFormed = (isRegIndex a && isRegIndex b)) (hm : i.operandBytes = [a, b])
    (hab : c = a ∨ a.toNat < 8 ∧ c = b) (hc : 7 < c.toNat) (h : t = s.raise ⟨.regIndex, infoOfByte c⟩) :
    ExecOutcome i s t := by
  rcases hab with rfl | ⟨-, rfl⟩
  · exact .of_regIndex (fun hf => by simp [hw, hf]) (by simp [hm]) hc h
  · exact .of_regIndex (fun hf => by simp [hw, hf]) (by simp [hm]) hc h

theorem ExecOutcome.of_setX {i : Instr} {s t : State} {d : Fin 8} {v : Word} (hi : i ≠ .halt)
    (hs : i.opcode.selfposColumn = false) (h : t = (s.setX d v).advance (i.opcode.nopsColumn + 1)) :
    ExecOutcome i s t :=
  .inr (.inr (.inr ⟨_, hi, hs, h, rfl, rfl, .inl rfl, .inl rfl, .inl rfl⟩))

theorem ExecOutcome.of_setPc {i : Instr} {s t : State} {v : Word} (hs : i.opcode.selfposColumn = true)
    (h : t = s.setPc v) : ExecOutcome i s t := by
  subst h
  exact .inr (.inr (.inl ⟨hs, rfl, rfl, rfl, .inl rfl⟩))

theorem ExecOutcome.of_binary {i : Instr} {s t : State} {a b : Byte} (hi : i ≠ .halt)
    (hs : i.opcode.selfposColumn = false) (hn : i.opcode.nopsColumn = 2)
    (hw : i.wellFormed = (isRegIndex a && isRegIndex b)) (hm : i.operandBytes = [a, b])
    (h : (∃ d v, a = regByte d ∧ t = (s.setX d v).advance 3) ∨
      (∃ c : Byte, (c = a ∨ a.toNat < 8 ∧ c = b) ∧ 7 < c.toNat ∧ t = s.raise ⟨.regIndex, infoOfByte c⟩)) :
    ExecOutcome i s t := by
  rcases h with ⟨d, v, -, h⟩ | ⟨c, hab, hc, h⟩
  · exact .of_setX (d := d) (v := v) hi hs (by rw [h, hn])
  · exact .of_regIndex_two hw hm hab hc h

/-- Every next state that `exec` answers is one of these outcomes. -/
theorem exec_outcome {i : Instr} {s t : State} (e : exec i s = .next t) : ExecOutcome i s t := by
  cases i with
  | nop => exact .inr (.inr (.inr ⟨s, by simp, rfl, exec_nop_next e, rfl, rfl, .inl rfl, .inl rfl, .inl rfl⟩))
  | halt => exact .inl ⟨rfl, exec_halt_next e⟩
  | ret =>
    rw [exec_ret_next e]
    exact .inr (.inr (.inl ⟨rfl, rfl, rfl, rfl, .inl rfl⟩))
  | push a =>
    rcases exec_push_next e with ⟨i, rfl, h⟩ | ⟨hc, h⟩
    · exact .inr (.inr (.inr ⟨_, by simp, rfl, h, rfl, rfl, .inl rfl, .inl rfl, .inr ⟨_, _, _, rfl, rfl⟩⟩))
    · exact .of_regIndex id (by simp [Instr.operandBytes]) hc h
  | pop a =>
    rcases exec_pop_next e with ⟨i, rfl, h⟩ | ⟨hc, h⟩
    · exact .inr (.inr (.inr ⟨_, by simp, rfl, h, rfl, rfl, .inl rfl, .inl rfl, .inl rfl⟩))
    · exact .of_regIndex id (by simp [Instr.operandBytes]) hc h
  | prn a =>
    rcases exec_prn_next e with ⟨i, rfl, h⟩ | ⟨hc, h⟩
    · exact .inr (.inr (.inr ⟨_, by simp, rfl, h, rfl, rfl, .inr ⟨i, rfl, rfl⟩, .inl rfl, .inl rfl⟩))
    · exact .of_regIndex id (by simp [Instr.operandBytes]) hc h
  | call a =>
    rcases exec_call_next e with ⟨i, rfl, -, h⟩ | ⟨i, rfl, hp, h⟩ | ⟨hc, h⟩
    · subst h
      exact .inr (.inr (.inl ⟨rfl, rfl, rfl, rfl, .inr ⟨_, _, _, rfl, rfl⟩⟩))
    · exact .inr (.inl ⟨_, h, .inr (.inr (.inl ⟨rfl, hp, rfl⟩))⟩)
    · exact .of_regIndex id (by simp [Instr.operandBytes]) hc h
  | jmp a =>
    rcases exec_jmp_next e with ⟨i, rfl, h⟩ | ⟨hc, h⟩
    · exact .of_setPc rfl h
    · exact .of_regIndex id (by simp [Instr.operandBytes]) hc h
  | jeq a =>
    rcases exec_jeq_next e with ⟨-, i, rfl, h⟩ | ⟨-, hc, h⟩ | ⟨-, -, h⟩ | ⟨-, hp, h⟩
    · exact .of_setPc rfl h
    · exact .of_regIndex id (by simp [Instr.operandBytes]) hc h
    · exact .of_setPc rfl h
    · exact .inr (.inl ⟨_, h, .inr (.inr (.inr ⟨.inl rfl, hp, rfl⟩))⟩)
  | jne a =>
    rcases exec_jne_next e with ⟨-, i, rfl, h⟩ | ⟨-, hc, h⟩ | ⟨-, -, h⟩ | ⟨-, hp, h⟩
    · exact .of_setPc rfl h
    · exact .of_regIndex id (by simp [Instr.operandBytes]) hc h
    · exact .of_setPc rfl h
    · exact .inr (.inl ⟨_, h, .inr (.inr (.inr ⟨.inr rfl, hp, rfl⟩))⟩)
  | ldi a imm =>
    rcases exec_ldi_next e with ⟨i, rfl, h⟩ | ⟨hc, h⟩
    · exact .of_setX (by simp) rfl h
    · exact .of_regIndex id (by simp [Instr.operandBytes]) hc h
  | not a b =>
    rcases exec_not_next e with ⟨i, rfl, h⟩ | ⟨hc, h⟩
    · exact .of_setX (by simp) rfl h
    · exact .of_regIndex id (by simp [Instr.operandBytes]) hc h
  | mod a b =>
    rcases exec_mod_next e with ⟨i, j, rfl, rfl, -, h⟩ | ⟨i, j, rfl, rfl, hz, h⟩ | ⟨c, hab, hc, h⟩
    · exact .of_setX (by simp) rfl h
    · exact .inr (.inl ⟨_, h, .inr (.inl ⟨i, j, rfl, hz, rfl⟩)⟩)
    · exact .of_regIndex_two rfl rfl hab hc h
  | cmp a b =>
    rcases exec_cmp_next e with ⟨i, j, rfl, rfl, h⟩ | ⟨c, hab, hc, h⟩
    · exact .inr (.inr (.inr ⟨_, by simp, rfl, h, rfl, rfl, .inl rfl, .inr ⟨_, _, rfl, rfl⟩, .inl rfl⟩))
    · exact .of_regIndex_two rfl rfl hab hc h
  | add a b => exact .of_binary (by simp) rfl rfl rfl rfl (exec_binary_next (a := a) (b := b) (by simp) e)
  | mult a b => exact .of_binary (by simp) rfl rfl rfl rfl (exec_binary_next (a := a) (b := b) (by simp) e)
  | and a b => exact .of_binary (by simp) rfl rfl rfl rfl (exec_binary_next (a := a) (b := b) (by simp) e)
  | or a b => exact .of_binary (by simp) rfl rfl rfl rfl (exec_binary_next (a := a) (b := b) (by simp) e)
  | xor a b => exact .of_binary (by simp) rfl rfl rfl rfl (exec_binary_next (a := a) (b := b) (by simp) e)
  | shl a b => exact .of_binary (by simp) rfl rfl rfl rfl (exec_binary_next (a := a) (b := b) (by simp) e)
  | shr a b => exact .of_binary (by simp) rfl rfl rfl rfl (exec_binary_next (a := a) (b := b) (by simp) e)

end Sys2Proof.Machine
end

