-- ==== Sys2Proof/Laws/PerInstr.lean ====
section
/-! SUPPORT. Statements about every instruction as syntax, one lemma per constructor of Instr. -/

/-- The length of an instruction in bytes is `nops(op) + 1`, with `nops` read from bits 7..6 of its first byte
(30_encoding.md R45). -/
def Sys2Proof.Laws.EncodedLength.Statement (i : Sys2Proof.Instr) : Prop :=
  (Sys2Proof.encode i).length = Sys2Proof.nopsField i.opcode.byte + 1

/-- Bit 4 of the opcode byte is set exactly for CALL, RET, JMP, JEQ and JNE (30_encoding.md R46, 40_dispatcher.md R60). -/
def Sys2Proof.Laws.OpcodeFields.Statement (i : Sys2Proof.Instr) : Prop :=
  Sys2Proof.selfposField i.opcode.byte = i.opcode.selfposColumn

theorem Sys2Proof.Laws.EncodedLength.nop : Sys2Proof.Laws.EncodedLength.Statement .nop := by
  rw [Sys2Proof.Laws.EncodedLength.Statement, Sys2Proof.nopsField_byte]
  rfl
theorem Sys2Proof.Laws.EncodedLength.halt : Sys2Proof.Laws.EncodedLength.Statement .halt := by
  rw [Sys2Proof.Laws.EncodedLength.Statement, Sys2Proof.nopsField_byte]
  rfl
theorem Sys2Proof.Laws.EncodedLength.ret : Sys2Proof.Laws.EncodedLength.Statement .ret := by
  rw [Sys2Proof.Laws.EncodedLength.Statement, Sys2Proof.nopsField_byte]
  rfl
theorem Sys2Proof.Laws.EncodedLength.push (a : Sys2Proof.Byte) : Sys2Proof.Laws.EncodedLength.Statement (.push a) := by
  rw [Sys2Proof.Laws.EncodedLength.Statement, Sys2Proof.nopsField_byte]
  rfl
theorem Sys2Proof.Laws.EncodedLength.pop (a : Sys2Proof.Byte) : Sys2Proof.Laws.EncodedLength.Statement (.pop a) := by
  rw [Sys2Proof.Laws.EncodedLength.Statement, Sys2Proof.nopsField_byte]
  rfl
theorem Sys2Proof.Laws.EncodedLength.prn (a : Sys2Proof.Byte) : Sys2Proof.Laws.EncodedLength.Statement (.prn a) := by
  rw [Sys2Proof.Laws.EncodedLength.Statement, Sys2Proof.nopsField_byte]
  rfl
theorem Sys2Proof.Laws.EncodedLength.call (a : Sys2Proof.Byte) : Sys2Proof.Laws.EncodedLength.Statement (.call a) := by
  rw [Sys2Proof.Laws.EncodedLength.Statement, Sys2Proof.nopsField_byte]
  rfl
theorem Sys2Proof.Laws.EncodedLength.jmp (a : Sys2Proof.Byte) : Sys2Proof.Laws.EncodedLength.Statement (.jmp a) := by
  rw [Sys2Proof.Laws.EncodedLength.Statement, Sys2Proof.nopsField_byte]
  rfl
theorem Sys2Proof.Laws.EncodedLength.jeq (a : Sys2Proof.Byte) : Sys2Proof.Laws.EncodedLength.Statement (.jeq a) := by
  rw [Sys2Proof.Laws.EncodedLength.Statement, Sys2Proof.nopsField_byte]
  rfl
theorem Sys2Proof.Laws.EncodedLength.jne (a : Sys2Proof.Byte) : Sys2Proof.Laws.EncodedLength.Statement (.jne a) := by
  rw [Sys2Proof.Laws.EncodedLength.Statement, Sys2Proof.nopsField_byte]
  rfl
theorem Sys2Proof.Laws.EncodedLength.ldi (a imm : Sys2Proof.Byte) : Sys2Proof.Laws.EncodedLength.Statement (.ldi a imm) := by
  rw [Sys2Proof.Laws.EncodedLength.Statement, Sys2Proof.nopsField_byte]
  rfl
theorem Sys2Proof.Laws.EncodedLength.add (a b : Sys2Proof.Byte) : Sys2Proof.Laws.EncodedLength.Statement (.add a b) := by
  rw [Sys2Proof.Laws.EncodedLength.Statement, Sys2Proof.nopsField_byte]
  rfl
theorem Sys2Proof.Laws.EncodedLength.mult (a b : Sys2Proof.Byte) : Sys2Proof.Laws.EncodedLength.Statement (.mult a b) := by
  rw [Sys2Proof.Laws.EncodedLength.Statement, Sys2Proof.nopsField_byte]
  rfl
theorem Sys2Proof.Laws.EncodedLength.mod (a b : Sys2Proof.Byte) : Sys2Proof.Laws.EncodedLength.Statement (.mod a b) := by
  rw [Sys2Proof.Laws.EncodedLength.Statement, Sys2Proof.nopsField_byte]
  rfl
theorem Sys2Proof.Laws.EncodedLength.cmp (a b : Sys2Proof.Byte) : Sys2Proof.Laws.EncodedLength.Statement (.cmp a b) := by
  rw [Sys2Proof.Laws.EncodedLength.Statement, Sys2Proof.nopsField_byte]
  rfl
theorem Sys2Proof.Laws.EncodedLength.and (a b : Sys2Proof.Byte) : Sys2Proof.Laws.EncodedLength.Statement (.and a b) := by
  rw [Sys2Proof.Laws.EncodedLength.Statement, Sys2Proof.nopsField_byte]
  rfl
theorem Sys2Proof.Laws.EncodedLength.not (a b : Sys2Proof.Byte) : Sys2Proof.Laws.EncodedLength.Statement (.not a b) := by
  rw [Sys2Proof.Laws.EncodedLength.Statement, Sys2Proof.nopsField_byte]
  rfl
theorem Sys2Proof.Laws.EncodedLength.or (a b : Sys2Proof.Byte) : Sys2Proof.Laws.EncodedLength.Statement (.or a b) := by
  rw [Sys2Proof.Laws.EncodedLength.Statement, Sys2Proof.nopsField_byte]
  rfl
theorem Sys2Proof.Laws.EncodedLength.xor (a b : Sys2Proof.Byte) : Sys2Proof.Laws.EncodedLength.Statement (.xor a b) := by
  rw [Sys2Proof.Laws.EncodedLength.Statement, Sys2Proof.nopsField_byte]
  rfl
theorem Sys2Proof.Laws.EncodedLength.shl (a b : Sys2Proof.Byte) : Sys2Proof.Laws.EncodedLength.Statement (.shl a b) := by
  rw [Sys2Proof.Laws.EncodedLength.Statement, Sys2Proof.nopsField_byte]
  rfl
theorem Sys2Proof.Laws.EncodedLength.shr (a b : Sys2Proof.Byte) : Sys2Proof.Laws.EncodedLength.Statement (.shr a b) := by
  rw [Sys2Proof.Laws.EncodedLength.Statement, Sys2Proof.nopsField_byte]
  rfl

theorem Sys2Proof.Laws.OpcodeFields.nop : Sys2Proof.Laws.OpcodeFields.Statement .nop :=
  Sys2Proof.selfposField_byte _
theorem Sys2Proof.Laws.OpcodeFields.halt : Sys2Proof.Laws.OpcodeFields.Statement .halt :=
  Sys2Proof.selfposField_byte _
theorem Sys2Proof.Laws.OpcodeFields.ret : Sys2Proof.Laws.OpcodeFields.Statement .ret :=
  Sys2Proof.selfposField_byte _
theorem Sys2Proof.Laws.OpcodeFields.push (a : Sys2Proof.Byte) : Sys2Proof.Laws.OpcodeFields.Statement (.push a) :=
  Sys2Proof.selfposField_byte _
theorem Sys2Proof.Laws.OpcodeFields.pop (a : Sys2Proof.Byte) : Sys2Proof.Laws.OpcodeFields.Statement (.pop a) :=
  Sys2Proof.selfposField_byte _
theorem Sys2Proof.Laws.OpcodeFields.prn (a : Sys2Proof.Byte) : Sys2Proof.Laws.OpcodeFields.Statement (.prn a) :=
  Sys2Proof.selfposField_byte _
theorem Sys2Proof.Laws.OpcodeFields.call (a : Sys2Proof.Byte) : Sys2Proof.Laws.OpcodeFields.Statement (.call a) :=
  Sys2Proof.selfposField_byte _
theorem Sys2Proof.Laws.OpcodeFields.jmp (a : Sys2Proof.Byte) : Sys2Proof.Laws.OpcodeFields.Statement (.jmp a) :=
  Sys2Proof.selfposField_byte _
theorem Sys2Proof.Laws.OpcodeFields.jeq (a : Sys2Proof.Byte) : Sys2Proof.Laws.OpcodeFields.Statement (.jeq a) :=
  Sys2Proof.selfposField_byte _
theorem Sys2Proof.Laws.OpcodeFields.jne (a : Sys2Proof.Byte) : Sys2Proof.Laws.OpcodeFields.Statement (.jne a) :=
  Sys2Proof.selfposField_byte _
theorem Sys2Proof.Laws.OpcodeFields.ldi (a imm : Sys2Proof.Byte) : Sys2Proof.Laws.OpcodeFields.Statement (.ldi a imm) :=
  Sys2Proof.selfposField_byte _
theorem Sys2Proof.Laws.OpcodeFields.add (a b : Sys2Proof.Byte) : Sys2Proof.Laws.OpcodeFields.Statement (.add a b) :=
  Sys2Proof.selfposField_byte _
theorem Sys2Proof.Laws.OpcodeFields.mult (a b : Sys2Proof.Byte) : Sys2Proof.Laws.OpcodeFields.Statement (.mult a b) :=
  Sys2Proof.selfposField_byte _
theorem Sys2Proof.Laws.OpcodeFields.mod (a b : Sys2Proof.Byte) : Sys2Proof.Laws.OpcodeFields.Statement (.mod a b) :=
  Sys2Proof.selfposField_byte _
theorem Sys2Proof.Laws.OpcodeFields.cmp (a b : Sys2Proof.Byte) : Sys2Proof.Laws.OpcodeFields.Statement (.cmp a b) :=
  Sys2Proof.selfposField_byte _
theorem Sys2Proof.Laws.OpcodeFields.and (a b : Sys2Proof.Byte) : Sys2Proof.Laws.OpcodeFields.Statement (.and a b) :=
  Sys2Proof.selfposField_byte _
theorem Sys2Proof.Laws.OpcodeFields.not (a b : Sys2Proof.Byte) : Sys2Proof.Laws.OpcodeFields.Statement (.not a b) :=
  Sys2Proof.selfposField_byte _
theorem Sys2Proof.Laws.OpcodeFields.or (a b : Sys2Proof.Byte) : Sys2Proof.Laws.OpcodeFields.Statement (.or a b) :=
  Sys2Proof.selfposField_byte _
theorem Sys2Proof.Laws.OpcodeFields.xor (a b : Sys2Proof.Byte) : Sys2Proof.Laws.OpcodeFields.Statement (.xor a b) :=
  Sys2Proof.selfposField_byte _
theorem Sys2Proof.Laws.OpcodeFields.shl (a b : Sys2Proof.Byte) : Sys2Proof.Laws.OpcodeFields.Statement (.shl a b) :=
  Sys2Proof.selfposField_byte _
theorem Sys2Proof.Laws.OpcodeFields.shr (a b : Sys2Proof.Byte) : Sys2Proof.Laws.OpcodeFields.Statement (.shr a b) :=
  Sys2Proof.selfposField_byte _
end

