-- ==== Sys2Proof/Tests/Slice0.lean ====
section
/-! SUPPORT. Tests: well-formedness, decoding of words written out from the spec's table, single steps from the spec's
own vectors (95_test_vectors.md, whose ids the names carry), and a witness for the hypotheses of each statement. -/

namespace Sys2Proof.Tests

open Sys2Proof Sys2Proof.Machine

/-! ### Well-formedness: a term for each check, refused; and the bytes that are not checked -/

theorem test_wf_push_a : (Instr.push 8).wellFormed = false := by decide
theorem test_wf_pop_a : (Instr.pop 8).wellFormed = false := by decide
theorem test_wf_prn_a : (Instr.prn 8).wellFormed = false := by decide
theorem test_wf_call_a : (Instr.call 8).wellFormed = false := by decide
theorem test_wf_jmp_a : (Instr.jmp 8).wellFormed = false := by decide
theorem test_wf_jeq_a : (Instr.jeq 8).wellFormed = false := by decide
theorem test_wf_jne_a : (Instr.jne 8).wellFormed = false := by decide
theorem test_wf_ldi_a : (Instr.ldi 8 0).wellFormed = false := by decide
theorem test_wf_not_a : (Instr.not 255 0).wellFormed = false := by decide
theorem test_wf_add_a : (Instr.add 8 0).wellFormed = false := by decide
theorem test_wf_add_b : (Instr.add 0 8).wellFormed = false := by decide
theorem test_wf_mult_a : (Instr.mult 8 0).wellFormed = false := by decide
theorem test_wf_mult_b : (Instr.mult 0 8).wellFormed = false := by decide
theorem test_wf_mod_a : (Instr.mod 8 0).wellFormed = false := by decide
theorem test_wf_mod_b : (Instr.mod 0 8).wellFormed = false := by decide
theorem test_wf_cmp_a : (Instr.cmp 8 0).wellFormed = false := by decide
theorem test_wf_cmp_b : (Instr.cmp 0 8).wellFormed = false := by decide
theorem test_wf_and_a : (Instr.and 8 0).wellFormed = false := by decide
theorem test_wf_and_b : (Instr.and 0 8).wellFormed = false := by decide
theorem test_wf_or_a : (Instr.or 8 0).wellFormed = false := by decide
theorem test_wf_or_b : (Instr.or 0 8).wellFormed = false := by decide
theorem test_wf_xor_a : (Instr.xor 8 0).wellFormed = false := by decide
theorem test_wf_xor_b : (Instr.xor 0 8).wellFormed = false := by decide
theorem test_wf_shl_a : (Instr.shl 8 0).wellFormed = false := by decide
theorem test_wf_shl_b : (Instr.shl 0 8).wellFormed = false := by decide
theorem test_wf_shr_a : (Instr.shr 8 0).wellFormed = false := by decide
theorem test_wf_shr_b : (Instr.shr 0 8).wellFormed = false := by decide
theorem test_wf_unchecked_bytes : (Instr.ldi 7 255).wellFormed = true ∧ (Instr.not 7 255).wellFormed = true := by decide
theorem test_wf_register_seven : (Instr.add 7 7).wellFormed = true := by decide

/-! ### Decoding: one word per constructor, its opcode from the column `binary` of 30_encoding.md R50 -/

theorem test_decode_nop : decode [0b00000000] = .ok (.nop, []) := rfl
theorem test_decode_halt : decode [0b00000001] = .ok (.halt, []) := rfl
theorem test_decode_ret : decode [0b00010001] = .ok (.ret, []) := rfl
theorem test_decode_push : decode [0b01000101, 0b00000110] = .ok (.push 6, []) := rfl
theorem test_decode_pop : decode [0b01000110, 0b00000110] = .ok (.pop 6, []) := rfl
theorem test_decode_prn : decode [0b01000111, 0b00000110] = .ok (.prn 6, []) := rfl
theorem test_decode_call : decode [0b01010000, 0b00000110] = .ok (.call 6, []) := rfl
theorem test_decode_jmp : decode [0b01010100, 0b00000110] = .ok (.jmp 6, []) := rfl
theorem test_decode_jeq : decode [0b01010101, 0b00000110] = .ok (.jeq 6, []) := rfl
theorem test_decode_jne : decode [0b01010110, 0b00000110] = .ok (.jne 6, []) := rfl
theorem test_decode_ldi : decode [0b10000010, 0b00000110, 0b00000011] = .ok (.ldi 6 3, []) := rfl
theorem test_decode_add : decode [0b10100000, 0b00000110, 0b00000011] = .ok (.add 6 3, []) := rfl
theorem test_decode_mult : decode [0b10100010, 0b00000110, 0b00000011] = .ok (.mult 6 3, []) := rfl
theorem test_decode_mod : decode [0b10100100, 0b00000110, 0b00000011] = .ok (.mod 6 3, []) := rfl
theorem test_decode_cmp : decode [0b10100111, 0b00000110, 0b00000011] = .ok (.cmp 6 3, []) := rfl
theorem test_decode_and : decode [0b10101000, 0b00000110, 0b00000011] = .ok (.and 6 3, []) := rfl
theorem test_decode_not : decode [0b10101001, 0b00000110, 0b00000011] = .ok (.not 6 3, []) := rfl
theorem test_decode_or : decode [0b10101010, 0b00000110, 0b00000011] = .ok (.or 6 3, []) := rfl
theorem test_decode_xor : decode [0b10101011, 0b00000110, 0b00000011] = .ok (.xor 6 3, []) := rfl
theorem test_decode_shl : decode [0b10101100, 0b00000110, 0b00000011] = .ok (.shl 6 3, []) := rfl
theorem test_decode_shr : decode [0b10101101, 0b00000110, 0b00000011] = .ok (.shr 6 3, []) := rfl
theorem test_decode_leaves_the_rest : decode [0x47, 0x00, 0x01, 0xFF] = .ok (.prn 0, [0x01, 0xFF]) := rfl
theorem test_decode_unknown_M16 : decode [0x69, 0x00] = .error (.unknownOpcode 0x69) := rfl
theorem test_decode_unknown_M17 : decode [0xC0] = .error (.unknownOpcode 0xC0) := rfl
theorem test_decode_unknown_M18 : decode [0x10] = .error (.unknownOpcode 0x10) := rfl
theorem test_decode_short : decode [0xA0, 0x00] = .error (.missingByte 2) ∧ decode [0x56] = .error (.missingByte 1) :=
  ⟨rfl, rfl⟩
theorem test_encode_ldi : encode (.ldi 1 9) = [0x82, 0x01, 0x09] := rfl
theorem test_decodeTableWord_ldi : decodeTableWord 24 0x090182 = some (.ldi 1 9) := by decide
theorem test_decodeTableWord_high_bits_are_zero : decodeTableWord 8 0x090182 = some (.ldi 0 0) := by decide
theorem test_decodeTableWord_unknown : decodeTableWord 8 0xFF = none := by decide

/-! ### Single steps: "Unless a vector says otherwise the state before it is the reset state", running -/

/-- The reset state, running, with the vector's bytes at its `pc`. -/
def ready (pc : Word) (code : List Byte) : State :=
  { State.reset with pc := pc, mem := Memory.storeBytes [] pc.toNat code, status := .running }

/-- Every fault state of the spec's vectors: only `STATUS` differs. -/
def faultedAt (s : State) (c : FaultCause) (info : Info) : State := { s with status := .faulted c info }

/-- The next state of a step, if it answers one. -/
def stepped (s : State) : Option State :=
  match step s with
  | .next t => some t
  | .fault _ => none
  | .refused _ => none

/-- A step from `s` answers `s` with just this change: everything else is unchanged. -/
def stepsTo (s : State) (change : State → State) : Bool := stepped s == some (change s)

theorem test_add_A2 :
    stepsTo ((ready 0 [0xA0, 0x00, 0x01]).setX 0 0xC8 |>.setX 1 0x64) (fun s => s.setX 0 0x2C |>.setPc 3) = true := by decide
theorem test_add_A35 :
    stepsTo ((ready 0xFD [0xA0, 0x00, 0x01]).setX 0 1 |>.setX 1 2) (fun s => faultedAt (s.setX 0 3) .pcAdvance 256) = true := by decide
theorem test_mult_A6 :
    stepsTo ((ready 0 [0xA2, 0x00, 0x01]).setX 0 0xFF |>.setX 1 0xFF) (fun s => s.setX 0 1 |>.setPc 3) = true := by decide
theorem test_mult_A7 :
    stepsTo ((ready 0 [0xA2, 0x02, 0x02]).setX 2 0x0C) (fun s => s.setX 2 0x90 |>.setPc 3) = true := by decide
theorem test_mod_A8 :
    stepsTo ((ready 0 [0xA4, 0x00, 0x01]).setX 0 0x11 |>.setX 1 5) (fun s => s.setX 0 2 |>.setPc 3) = true := by decide
theorem test_mod_A10 :
    stepsTo ((ready 9 [0xA4, 0x00, 0x01]).setX 0 0x11 |>.setX 1 0) (fun s => faultedAt s .divideByZero 1) = true := by decide
theorem test_and_A13 :
    stepsTo ((ready 0 [0xA8, 0x00, 0x01]).setX 0 0xCC |>.setX 1 0xAA) (fun s => s.setX 0 0x88 |>.setPc 3) = true := by decide
theorem test_or_A14 :
    stepsTo ((ready 0 [0xAA, 0x00, 0x01]).setX 0 0xCC |>.setX 1 0xAA) (fun s => s.setX 0 0xEE |>.setPc 3) = true := by decide
theorem test_xor_A15 :
    stepsTo ((ready 0 [0xAB, 0x00, 0x01]).setX 0 0xCC |>.setX 1 0xAA) (fun s => s.setX 0 0x66 |>.setPc 3) = true := by decide
theorem test_xor_A16 :
    stepsTo ((ready 0 [0xAB, 0x03, 0x03]).setX 3 0x5A) (fun s => s.setX 3 0 |>.setPc 3) = true := by decide
theorem test_not_A18 : stepsTo (ready 0 [0xA9, 0x00, 0xFF]) (fun s => s.setX 0 0xFF |>.setPc 3) = true := by decide
theorem test_not_A19 : stepsTo (ready 0 [0xA9, 0x08, 0x00]) (fun s => faultedAt s .regIndex 8) = true := by decide
theorem test_shl_A21 :
    stepsTo ((ready 0 [0xAC, 0x00, 0x01]).setX 0 0x81 |>.setX 1 1) (fun s => s.setX 0 2 |>.setPc 3) = true := by decide
theorem test_shl_A24 :
    stepsTo ((ready 0 [0xAC, 0x00, 0x01]).setX 0 1 |>.setX 1 0xFF) (fun s => s.setX 0 0 |>.setPc 3) = true := by decide
theorem test_shr_A25 :
    stepsTo ((ready 0 [0xAD, 0x00, 0x01]).setX 0 0xC8 |>.setX 1 3) (fun s => s.setX 0 0x19 |>.setPc 3) = true := by decide
theorem test_shr_A26 :
    stepsTo ((ready 0 [0xAD, 0x00, 0x01]).setX 0 0x80 |>.setX 1 7) (fun s => s.setX 0 1 |>.setPc 3) = true := by decide
theorem test_cmp_A30 :
    stepsTo ((ready 0 [0xA7, 0x00, 0x01]).setX 0 9 |>.setX 1 3 |>.setFl 1) (fun s => s.setFl 2 |>.setPc 3) = true := by decide
theorem test_cmp_A29 :
    stepsTo ((ready 0 [0xA7, 0x00, 0x01]).setX 0 3 |>.setX 1 9) (fun s => s.setFl 4 |>.setPc 3) = true := by decide
theorem test_push_K2 :
    stepsTo (ready 0 [0x45, 0x07]) (fun s => s.setX 7 0xF3 |>.writeByte 0xF3 0xF3 |>.setPc 2) = true := by decide
theorem test_push_K9 :
    stepsTo ((ready 0xFE [0x45, 0x00]).setX 0 5) (fun s => faultedAt (s.setX 7 0xF3 |>.writeByte 0xF3 5) .pcAdvance 256) = true := by decide
theorem test_pop_K5 :
    stepsTo ((ready 0 [0x46, 0x07]).setX 7 0xF3 |>.writeByte 0xF3 0x10) (fun s => s.setX 7 0x11 |>.setPc 2) = true := by decide
theorem test_pop_K6 :
    stepsTo ((ready 0 [0x46, 0x00]).setX 7 0xFF |>.writeByte 0xFF 0x99) (fun s => s.setX 0 0x99 |>.setX 7 0 |>.setPc 2) = true := by decide
theorem test_call_K11 :
    stepsTo (ready 6 [0x50, 0x07]) (fun s => s.setX 7 0xF3 |>.writeByte 0xF3 8 |>.setPc 0xF3) = true := by decide
theorem test_call_K12 :
    stepsTo ((ready 0xFE [0x50, 0x01]).setX 1 0x20) (fun s => faultedAt s .returnAddress 256) = true := by decide
theorem test_ret_K14 :
    stepsTo ((ready 0x20 [0x11]).setX 7 0xF3 |>.writeByte 0xF3 8) (fun s => s.setPc 8 |>.setX 7 0xF4) = true := by decide
theorem test_ret_K16 :
    stepsTo ((ready 0xFF [0x11]).setX 7 0xFF) (fun s => s.setPc 0x11 |>.setX 7 0) = true := by decide
theorem test_jmp_K17 : stepsTo ((ready 0 [0x54, 0x02]).setX 2 0x10) (fun s => s.setPc 0x10) = true := by decide
theorem test_jmp_K19 : stepsTo (ready 0 [0x54, 0x09]) (fun s => faultedAt s .regIndex 9) = true := by decide
theorem test_jeq_K27 : stepsTo ((ready 0x0C [0x55, 0x09]).setFl 2) (fun s => s.setPc 0x0E) = true := by decide
theorem test_jeq_K29 :
    stepsTo ((ready 0xFE [0x55, 0x02]).setX 2 0x10 |>.setFl 1) (fun s => s.setPc 0x10) = true := by decide
theorem test_jne_K25 : stepsTo ((ready 0x0C [0x56, 0x02]).setX 2 0x10) (fun s => s.setPc 0x10) = true := by decide
theorem test_jne_K30 :
    stepsTo ((ready 0xFF [0x56]).setX 2 0x10) (fun s => faultedAt s .operandFetch 256) = true := by decide
theorem test_ldi_M2 : stepsTo (ready 0 [0x82, 0x07, 0x80]) (fun s => s.setX 7 0x80 |>.setPc 3) = true := by decide
theorem test_ldi_M5 :
    stepsTo (ready 0xFD [0x82, 0x00, 0x08]) (fun s => faultedAt (s.setX 0 8) .pcAdvance 256) = true := by decide
theorem test_prn_M8 : stepsTo (ready 0 [0x47, 0x07]) (fun s => s.emit 244 |>.setPc 2) = true := by decide
theorem test_prn_M10 :
    stepsTo ((ready 0xFE [0x47, 0x00]).setX 0 9) (fun s => faultedAt (s.emit 9) .pcAdvance 256) = true := by decide
theorem test_nop_M11 : stepsTo (ready 5 [0x00]) (fun s => s.setPc 6) = true := by decide
theorem test_nop_M12 : stepsTo (ready 0xFF [0x00]) (fun s => faultedAt s .pcAdvance 256) = true := by decide
theorem test_halt_M14 : stepsTo (ready 0xFF [0x01]) (fun s => s.halt) = true := by decide
theorem test_fetch_A36 :
    stepsTo ((ready 0xFE [0xA0, 0x00]).setX 0 1 |>.setX 1 2) (fun s => faultedAt s .operandFetch 256) = true := by decide
theorem test_unknown_M15 : stepsTo (ready 0xFF [0xFF]) (fun s => faultedAt s .unknownOpcode 0xFF) = true := by decide
theorem test_step_L4 : stepped (ready 0 [0x00]).halt = some (ready 0 [0x00]).halt := by decide
theorem test_run_L3 : (ready 0 [0x00]).halt.run = (ready 0 [0x00]).halt := by decide
theorem test_withFetchWord_runs_from_reset :
    stepped (State.reset.withFetchWord 24 0x090182) = some ((State.reset.withFetchWord 24 0x090182).setX 1 9 |>.setPc 3) := by
  decide
theorem test_exit_status : (State.reset.halt).status.exitStatus = some 0 ∧
    (State.reset.raise ⟨.unknownOpcode, 0xFF⟩).status.exitStatus = some 1 := by decide
theorem test_write_of_unlisted_byte_removes_the_entry : Memory.write [(3, 7), (9, 1)] 3 0 = [(9, 1)] := by decide
theorem test_memory_form_refuses_a_listed_zero : Memory.wf [(3, 0)] = false ∧ Memory.wf [(9, 1), (3, 7)] = false ∧
    Memory.wf [(256, 1)] = false := by decide

/-! ### Witnesses: a concrete state and operands that meet the hypotheses of each statement, clause by clause, at the
ends of the ranges -/

/-- A running state that meets the invariant. -/
theorem ready_inv_of_wf {pc : Word} {code : List Byte} (h : Memory.wf (ready pc code).mem = true) : (ready pc code).Inv :=
  ⟨h, .inl rfl, trivial⟩

theorem witness_DecodedBytesAreTheEncoding : decode [0xA9, 0x07, 0xFF, 0x01] = .ok (.not 7 255, [0x01]) := rfl

theorem witness_OpcodeTableMeetsItsConstraints : ∃ n ∈ List.range 256, 192 ≤ n :=
  ⟨192, by simp, le_rfl⟩

theorem witness_StepRunsTheDecodedInstruction :
    (ready 253 [0xA0, 0x00, 0x01]).status = .running ∧
      decode (ready 253 [0xA0, 0x00, 0x01]).fetchBytes = .ok (.add 0 1, []) := ⟨rfl, rfl⟩

theorem witness_StepRunsTheBytesAtPc :
    (ready 253 [0xA0, 0x00, 0x01]).status = .running ∧
      (ready 253 [0xA0, 0x00, 0x01]).pc.toNat + (encode (.add 0 1)).length ≤ 256 ∧
      ∀ (k : Nat) (h : k < (encode (.add 0 1)).length),
        Memory.read (ready 253 [0xA0, 0x00, 0x01]).mem ((ready 253 [0xA0, 0x00, 0x01]).pc.toNat + k) =
          (encode (.add 0 1))[k] := by decide

theorem witness_UnknownOpcodeEndsTheRun :
    (ready 255 [0xFF]).status = .running ∧ Opcode.ofByte ((ready 255 [0xFF]).readByte (ready 255 [0xFF]).pc) = none := by
  decide

theorem witness_OperandFetchPastTheEndFaults_one_operand :
    (ready 255 [0x56]).status = .running ∧
      Opcode.ofByte ((ready 255 [0x56]).readByte (ready 255 [0x56]).pc) = some .jne ∧
      255 < (ready 255 [0x56]).pc.toNat + Opcode.jne.nopsColumn := by decide

theorem witness_OperandFetchPastTheEndFaults_two_operands :
    (ready 254 [0xA0]).status = .running ∧
      Opcode.ofByte ((ready 254 [0xA0]).readByte (ready 254 [0xA0]).pc) = some .add ∧
      255 < (ready 254 [0xA0]).pc.toNat + Opcode.add.nopsColumn := by decide

theorem witness_NothingChangesUnlessRunning :
    State.reset.status ≠ .running ∧ (ready 0 []).halt.status ≠ .running ∧
      (faultedAt State.reset .operandFetch 256).status ≠ .running := by decide

theorem witness_StoredFetchWordRunsNext :
    Memory.wf (ready 253 []).mem = true ∧ (ready 253 []).pc.toNat ≤ 253 ∧
      decodeTableWord 24 0x0100A0 = some (.add 0 1) := by decide

/-- ADD, MULT, AND, OR, XOR, SHL, SHR and CMP: the completing form up to `pc` = 252, and the bytes above 7. -/
theorem witness_ComputesFromBoth :
    (ready 252 []).pc.toNat ≤ 252 ∧ 7 < (8 : Byte).toNat ∧ (7 : Byte).toNat ≤ 7 ∧ 7 < (255 : Byte).toNat := by decide

theorem witness_ModWritesTheRemainderOrFaults :
    (ready 252 []).pc.toNat ≤ 252 ∧ (ready 252 []).x 7 ≠ 0 ∧ (ready 255 []).x 6 = 0 ∧
      7 < (8 : Byte).toNat ∧ (7 : Byte).toNat ≤ 7 ∧ 7 < (255 : Byte).toNat := by decide

theorem witness_NotComplementsAndIgnoresItsSecondByte : (ready 252 []).pc.toNat ≤ 252 ∧ 7 < (8 : Byte).toNat := by decide

theorem witness_CompareSetsExactlyOneFlag :
    (ready 252 []).pc.toNat ≤ 252 ∧
      ((ready 252 []).x 0).toNat = ((ready 252 []).x 6).toNat ∧
      ((ready 252 []).x 7).toNat > ((ready 252 []).x 0).toNat ∧
      ((ready 252 []).x 0).toNat < ((ready 252 []).x 7).toNat := by decide

theorem witness_InvalidAluOpIsNeverRaised :
    (∀ o : Opcode, o.byte = 0xFF → o.isAlu = false) ∧ (∀ o : Opcode, o.byte = 0x82 → o.isAlu = false) ∧
      ∃ t, (ready 253 [0xA0, 0x00, 0x01]).status = .running ∧ step (ready 253 [0xA0, 0x00, 0x01]) = .next t :=
  ⟨fun o => by cases o <;> decide, fun o => by cases o <;> decide, _, rfl, rfl⟩

theorem witness_OnlyModByZeroIsAnArithmeticFault :
    (∃ t, (ready 0 []).status = .running ∧ exec (.mod 7 6) (ready 0 []) = .next t ∧
      t.status = .faulted .divideByZero 6) ∧
    (ready 0 []).x 6 = 0 ∧
    (Instr.add 7 7).wellFormed = true ∧ (Instr.add 7 7).opcode.isAlu = true ∧ (Instr.add 7 7).opcode ≠ .mod ∧
      (ready 252 []).pc.toNat ≤ 252 :=
  ⟨⟨_, rfl, rfl, rfl⟩, by decide, by decide, by decide, by decide, by decide⟩

/-- PUSH (and POP): below the last place, at the last place, and the byte that is no register. -/
theorem witness_PushDecrementsThenStores :
    Memory.wf (ready 253 [0x45, 0x07]).mem = true ∧ (ready 253 [0x45, 0x07]).pc.toNat ≤ 253 ∧
      Memory.wf (ready 254 [0x45, 0x07]).mem = true ∧ (ready 254 [0x45, 0x07]).pc.toNat = 254 ∧
      7 < (8 : Byte).toNat := by decide

theorem witness_PopLoadsThenIncrements :
    (ready 253 [0x46, 0x07]).pc.toNat ≤ 253 ∧ (ready 254 [0x46, 0x07]).pc.toNat = 254 ∧ 7 < (8 : Byte).toNat := by decide

theorem witness_CallPushesTheReturnAddress :
    Memory.wf (ready 253 [0x50, 0x07]).mem = true ∧ (ready 253 [0x50, 0x07]).pc.toNat ≤ 253 ∧
      (ready 254 [0x50, 0x07]).pc.toNat = 254 ∧ 7 < (8 : Byte).toNat := by decide

theorem witness_RetPopsThePc :
    Memory.wf (ready 253 [0x50, 0x01]).mem = true ∧ (ready 253 [0x50, 0x01]).pc.toNat ≤ 253 := by decide

theorem witness_JmpGoesToTheRegister : 7 < (8 : Byte).toNat := by decide

/-- JEQ and JNE: the equal pattern, another pattern, at the last two places of the fall-through. -/
theorem witness_JeqAndJne :
    ((ready 255 []).setFl 1).fl = 0b00000001 ∧ (ready 255 []).fl ≠ 0b00000001 ∧ 7 < (8 : Byte).toNat ∧
      ((ready 253 []).setFl 4).fl ≠ 0b00000001 ∧ ((ready 253 []).setFl 4).pc.toNat ≤ 253 ∧
      ((ready 254 []).setFl 3).fl ≠ 0b00000001 ∧ ((ready 254 []).setFl 3).pc.toNat = 254 ∧
      ((ready 253 []).setFl 1).pc.toNat ≤ 253 ∧ ((ready 254 []).setFl 1).pc.toNat = 254 := by decide

theorem witness_CompareSteersTheConditionalJumps :
    (∃ t, (ready 250 []).pc.toNat ≤ 250 ∧ exec (.cmp (regByte 0) (regByte 6)) (ready 250 []) = .next t ∧
      (ready 250 []).x 0 = (ready 250 []).x 6) ∧
    (∃ t, exec (.cmp (regByte 0) (regByte 7)) (ready 250 []) = .next t ∧ (ready 250 []).x 0 ≠ (ready 250 []).x 7) :=
  ⟨⟨_, by decide, rfl, by decide⟩, _, rfl, by decide⟩

theorem witness_PushThenPopMovesARegister :
    (ready 251 [0x45, 0x00, 0x46, 0x06]).status = .running ∧
      Memory.wf (ready 251 [0x45, 0x00, 0x46, 0x06]).mem = true ∧ (0 : Fin 8) ≠ 7 ∧ (6 : Fin 8) ≠ 7 ∧
      (ready 251 [0x45, 0x00, 0x46, 0x06]).pc.toNat ≤ 251 ∧
      (ready 251 [0x45, 0x00, 0x46, 0x06]).readByte 251 = 0x45 ∧
      (ready 251 [0x45, 0x00, 0x46, 0x06]).readByte 252 = regByte 0 ∧
      (ready 251 [0x45, 0x00, 0x46, 0x06]).readByte 253 = 0x46 ∧
      (ready 251 [0x45, 0x00, 0x46, 0x06]).readByte 254 = regByte 6 ∧
      ∀ k : Nat, k < 4 → ((ready 251 [0x45, 0x00, 0x46, 0x06]).x 7 - 1).toNat ≠ 251 + k := by decide

theorem witness_LdiLoadsTheImmediate :
    (ready 252 []).pc.toNat ≤ 252 ∧ (ready 253 []).pc.toNat = 253 ∧ 7 < (8 : Byte).toNat ∧
      (ready 254 [0x82]).status = .running ∧ (ready 254 [0x82]).readByte (ready 254 [0x82]).pc = 0x82 ∧
      254 ≤ (ready 254 [0x82]).pc.toNat ∧
      (ready 255 [0x82]).readByte (ready 255 [0x82]).pc = 0x82 ∧ 254 ≤ (ready 255 [0x82]).pc.toNat := by decide

theorem witness_PrnAppendsTheValue :
    (ready 253 []).pc.toNat ≤ 253 ∧ (ready 254 []).pc.toNat = 254 ∧ 7 < (8 : Byte).toNat := by decide

theorem witness_NopOnlyAdvances : (ready 254 []).pc.toNat ≤ 254 ∧ (ready 255 []).pc.toNat = 255 := by decide

theorem witness_FrameOfRegisterWriters :
    (∃ t, exec (.add 7 7) (ready 0 []) = .next t ∧ t.x 7 ≠ (ready 0 []).x 7) ∧
      (∃ t, exec (.ldi 7 1) (ready 0 []) = .next t) ∧ (∃ t, exec (.mod 0 1) (ready 0 []) = .next t) ∧
      (∃ t, exec (.not 7 255) (ready 0 []) = .next t) ∧ (∃ t, exec (.shr 8 0) (ready 0 []) = .next t) :=
  ⟨⟨_, rfl, by decide⟩, ⟨_, rfl⟩, ⟨_, rfl⟩, ⟨_, rfl⟩, _, rfl⟩

/-- From `FL` = FF: both bytes at most 7, at the last `pc` with an advance and at the first without; a byte above 7. -/
theorem witness_FrameOfCompare :
    ((0 : Byte).toNat ≤ 7 ∧ (7 : Byte).toNat ≤ 7 ∧
      (∃ t, exec (.cmp 0 7) ((ready 252 []).setFl 0xFF) = .next t ∧ t.fl ≠ 0xFF) ∧
      (∃ t, exec (.cmp 0 7) ((ready 253 []).setFl 0xFF) = .next t ∧ t.GoneWrong)) ∧
    (7 < (8 : Byte).toNat ∧ ∃ t, exec (.cmp 7 8) ((ready 252 []).setFl 0xFF) = .next t) :=
  ⟨⟨by decide, by decide, ⟨_, rfl, by decide⟩, _, rfl, _, _, rfl⟩, by decide, _, rfl⟩

theorem witness_FrameOfJumps :
    (∃ t, exec (.jmp 7) (ready 0 []) = .next t) ∧ (∃ t, exec (.jeq 7) (ready 0 []) = .next t) ∧
      (∃ t, exec (.jne 7) (ready 0 []) = .next t) := ⟨⟨_, rfl⟩, ⟨_, rfl⟩, _, rfl⟩

theorem witness_FrameOfSimpleInstructions :
    (∃ t, exec .nop (ready 0 []) = .next t) ∧ (∃ t, exec .halt (ready 0 []) = .next t) ∧
      (∃ t, exec (.prn 7) (ready 0 []) = .next t) := ⟨⟨_, rfl⟩, ⟨_, rfl⟩, _, rfl⟩

theorem witness_FrameOfStackStores :
    (∃ t, exec (.push 7) (ready 0 []) = .next t ∧ t.mem ≠ (ready 0 []).mem) ∧
      (∃ t, exec (.call 7) (ready 0 []) = .next t ∧ t.mem ≠ (ready 0 []).mem) ∧ (ready 0 []).decSp.sp = 0xF3 :=
  ⟨⟨_, rfl, by decide⟩, ⟨_, rfl, by decide⟩, by decide⟩

theorem witness_FrameOfStackLoads :
    (∃ t, exec (.pop 7) (ready 0 []) = .next t) ∧ (∃ t, exec .ret (ready 0 []) = .next t) := ⟨⟨_, rfl⟩, _, rfl⟩

theorem witness_FlagsAreWrittenByCompareAndReadByJumps :
    (∃ t, (Instr.add 0 1).opcode ≠ .cmp ∧ (Instr.add 0 1).opcode ≠ .jeq ∧ (Instr.add 0 1).opcode ≠ .jne ∧
      exec (.add 0 1) (ready 0 []) = .next t) ∧
    (∃ t, ((0x05 : Word) = 0b00000001 ↔ (ready 253 []).fl = 0b00000001) ∧ exec (.jeq 8) (ready 253 []) = .next t) :=
  ⟨⟨_, by decide, by decide, by decide, rfl⟩, _, by decide, rfl⟩

theorem witness_OnlyPushAndCallWriteMemory :
    (∃ t, step (ready 0 [0x45, 0x07]) = .next t ∧ t.mem ≠ (ready 0 [0x45, 0x07]).mem) ∧
      (∃ t, step (ready 0 [0x50, 0x07]) = .next t ∧ t.mem ≠ (ready 0 [0x50, 0x07]).mem) :=
  ⟨⟨_, rfl, by decide⟩, _, rfl, by decide⟩

theorem witness_OutputIsAppendedByPrnAndReadByNothing :
    (∃ t, step (ready 0 [0x47, 0x07]) = .next t ∧ t.out ≠ (ready 0 [0x47, 0x07]).out) ∧
      (∃ t, step (ready 0 [0x00]) = .next t ∧ t.out = (ready 0 [0x00]).out) ∧ State.reset.status = .idle :=
  ⟨⟨_, rfl, by decide⟩, ⟨_, rfl, by decide⟩, rfl⟩

theorem witness_RunEndsByHaltOrFaultOnly :
    (∃ t, (ready 0 [0x00]).status = .running ∧ step (ready 0 [0x00]) = .next t ∧ t.status = .running) ∧
      ((ready 255 [0x01]).status = .running ∧ decode (ready 255 [0x01]).fetchBytes = .ok (.halt, [])) ∧
      (∃ t, step (ready 255 [0xFF]) = .next t ∧ t.GoneWrong) ∧
      (decode ((ready 4 [0x54, 0x02]).setX 2 4).fetchBytes = .ok (.jmp (regByte 2), [0x00]) ∧
        ((ready 4 [0x54, 0x02]).setX 2 4).x 2 = ((ready 4 [0x54, 0x02]).setX 2 4).pc) :=
  ⟨⟨_, rfl, rfl, rfl⟩, ⟨rfl, rfl⟩, ⟨_, rfl, _, _, rfl⟩, rfl, rfl⟩

theorem witness_FaultsArePrecise :
    (∃ t, (ready 9 [0xA4, 0x00, 0x01]).status = .running ∧ step (ready 9 [0xA4, 0x00, 0x01]) = .next t ∧
      t.status = .faulted .divideByZero 1) ∧
    (∃ t, step (ready 254 [0x45, 0x00]) = .next t ∧ t.status = .faulted .pcAdvance 256) :=
  ⟨⟨_, rfl, rfl, rfl⟩, _, rfl, rfl⟩

/-- One state for each clause of the priority; MOD at 253 and CALL at 254 are where clauses meet. -/
theorem witness_FaultsAreReportedInPriorityOrder :
    Opcode.ofByte ((ready 255 [0xFF]).readByte 255) = none ∧
      (Opcode.ofByte ((ready 254 [0xA4, 0x08]).readByte 254) = some .mod ∧ 255 < 254 + Opcode.mod.nopsColumn) ∧
      (decode (ready 253 [0xA4, 0x08, 0x09]).fetchBytes = .ok (.mod 8 9, []) ∧ 7 < (8 : Byte).toNat) ∧
      (decode (ready 253 [0xA4, 0x07, 0x08]).fetchBytes = .ok (.mod 7 8, []) ∧ (7 : Byte).toNat ≤ 7) ∧
      (decode (ready 253 [0xA4, 0x07, 0x06]).fetchBytes = .ok (.mod (regByte 7) (regByte 6), []) ∧
        (ready 253 [0xA4, 0x07, 0x06]).x 6 = 0) ∧
      (decode (ready 254 [0x50, 0x08]).fetchBytes = .ok (.call 8, [])) ∧
      (decode (ready 254 [0x50, 0x07]).fetchBytes = .ok (.call 7, []) ∧ (ready 254 [0x50, 0x07]).pc.toNat = 254) ∧
      (decode (ready 253 [0xA0, 0x07, 0x07]).fetchBytes = .ok (.add 7 7, []) ∧ (Instr.add 7 7).wellFormed = true ∧
        (Instr.add 7 7).opcode.selfposColumn = false ∧ 255 < 253 + (encode (.add 7 7)).length) :=
  ⟨rfl, ⟨rfl, by decide⟩, ⟨rfl, by decide⟩, ⟨rfl, by decide⟩, ⟨rfl, rfl⟩, rfl, ⟨rfl, rfl⟩, rfl, rfl, rfl, by decide⟩

theorem witness_PcAdvanceFaultKeepsTheEffects :
    (∃ t, (Instr.push 7).opcode.selfposColumn = false ∧ Instr.push 7 ≠ .halt ∧ (ready 254 []).status = .running ∧
      255 < (ready 254 []).pc.toNat + (encode (.push 7)).length ∧
      exec (.push 7) { ready 254 [] with pc := 0 } = .next t ∧ t.status = .running) ∧
    (∃ t, (Instr.mod 0 1).opcode.selfposColumn = false ∧ 255 < (ready 253 []).pc.toNat + (encode (.mod 0 1)).length ∧
      exec (.mod 0 1) { ready 253 [] with pc := 0 } = .next t ∧ t.GoneWrong) :=
  ⟨⟨_, rfl, by decide, rfl, by decide, rfl, rfl⟩, _, rfl, by decide, rfl, _, _, rfl⟩

theorem witness_PcAfterEachInstruction :
    (∃ t, (ready 253 [0x50, 0x07]).status = .running ∧
      decode (ready 253 [0x50, 0x07]).fetchBytes = .ok (.call 7, [0x00]) ∧
      step (ready 253 [0x50, 0x07]) = .next t ∧ t.status = .running) ∧
    (∃ t, decode (ready 254 [0x50, 0x07]).fetchBytes = .ok (.call 7, []) ∧
      step (ready 254 [0x50, 0x07]) = .next t ∧ t.GoneWrong) :=
  ⟨⟨_, rfl, rfl, rfl, rfl⟩, _, rfl, rfl, _, _, rfl⟩

theorem witness_RunStartsAtZeroFromIdle : State.reset.status = .idle ∧ (ready 0 []).status ≠ .idle := by decide

theorem witness_LoadPutsTheProgramAtZero :
    State.reset.status = .idle ∧ Memory.wf State.reset.mem = true ∧ (List.replicate 256 (1 : Byte)).length ≤ 256 ∧
      256 < (List.replicate 257 (1 : Byte)).length :=
  ⟨rfl, rfl, by rw [List.length_replicate], by rw [List.length_replicate]; decide⟩

theorem witness_HostWritesOnlyWhileIdle :
    State.reset.status = .idle ∧ Memory.wf State.reset.mem = true ∧ (ready 0 []).status ≠ .idle := by decide

theorem witness_StatusPortsDetermineTheStatus :
    (Status.faulted .regIndex 255).stateField = (Status.faulted .regIndex 255).stateField ∧
      (Status.faulted .regIndex 255).causeField = 7 ∧ (Status.faulted .regIndex 255).infoField = 255 ∧
      Status.halted.stateField ≠ 3 := by decide

theorem witness_CanonicalMemoriesThatReadAlikeAreEqual :
    ∃ m n : Memory, m = Memory.write (Memory.write [] 255 7) 0 1 ∧ n = Memory.write (Memory.write [] 0 1) 255 7 ∧
      Memory.wf m = true ∧ Memory.wf n = true ∧ ∀ a, a < 256 → Memory.read m a = Memory.read n a :=
  ⟨_, _, rfl, rfl, rfl, rfl, fun _ _ => rfl⟩

theorem witness_EveryStepKeepsTheInvariant :
    (∃ t, (ready 254 [0x45, 0x07]).Inv ∧ step (ready 254 [0x45, 0x07]) = .next t ∧ t.GoneWrong) ∧
      (∃ t, (ready 0 [0xA7, 0x00, 0x07]).Inv ∧ step (ready 0 [0xA7, 0x00, 0x07]) = .next t ∧ t.fl = 0x04) :=
  ⟨⟨_, ready_inv_of_wf rfl, rfl, _, _, rfl⟩, _, ready_inv_of_wf rfl, rfl, by decide⟩

theorem witness_HostActionsKeepTheInvariant :
    (∃ t, State.reset.Inv ∧ State.reset.host (.write 255 1) = some t) ∧
      (∃ t, (ready 0 [0x01]).Inv ∧ (ready 0 [0x01]).host .run = some t) :=
  ⟨⟨_, ⟨rfl, .inl rfl, rfl, rfl, rfl⟩, rfl⟩, _, ready_inv_of_wf rfl, rfl⟩

/-- The first state of a run, from any image. -/
theorem witness_ReachableStatesAreLegal (mem0 : Vector Byte 256) :
    ∃ t, (resetWith mem0).host .run = some t ∧ Reachable t ∧ t.status = .running :=
  ⟨_, rfl, .host .run (.reset mem0) rfl, rfl⟩

end Sys2Proof.Tests
end

section
/-! PROOFS. What no instruction reads (10_state.md R19, R25): `FL` is read by JEQ and JNE alone and `OUT` by nothing. A
change of both is moved through every operation of a step at once, and each statement follows for a particular change. -/

namespace Sys2Proof.Machine

/-! ### A change of the parts that are not read -/

/-- The same state with `FL` rewritten by `f` and with `p` emitted before everything in `OUT`. -/
def State.withUnread (f : Word → Word) (p : List Word) (s : State) : State :=
  { s with fl := f s.fl, out := p ++ s.out }

section
variable {f : Word → Word} {p : List Word} {s t : State}

theorem State.advance_withUnread (k : Nat) :
    (s.withUnread f p).advance k = (s.advance k).withUnread f p := by
  unfold State.advance
  split
  · next h => rw [if_pos (show s.pcPlus k ≤ Config.topAddress from h)]; rfl
  · next h => rw [if_neg (show ¬ s.pcPlus k ≤ Config.topAddress from h)]; rfl

theorem State.emit_withUnread (v : Word) : (s.withUnread f p).emit v = (s.emit v).withUnread f p := by
  simp [State.emit, State.withUnread]

/-- The end of a step carries the change through when the handler did. -/
theorem finish_withUnread {o : Opcode} {h h' : Handled} (hh : h' = h.map (State.withUnread f p))
    (e : finish o s h = .next t) : finish o (s.withUnread f p) h' = .next (t.withUnread f p) := by
  subst hh
  rcases finish_cases e with ⟨r, rfl, rfl⟩ | ⟨u, rfl, hs, rfl⟩ | ⟨u, rfl, hs, rfl⟩
  · rfl
  · simp [Except.map, finish_ok, hs]
  · simp [Except.map, finish_ok, hs, State.advance_withUnread]

/-! ### Register operands and handlers carry the change through -/

theorem withReg_map {g : State → State} (a : Byte) {k k' : Fin 8 → Handled} (h : ∀ i, k' i = (k i).map g) :
    withReg a k' = (withReg a k).map g := by
  unfold withReg
  split
  · exact h _
  · rfl

theorem withRegs_map {g : State → State} (a b : Byte) {k k' : Fin 8 → Fin 8 → Handled}
    (h : ∀ i j, k' i j = (k i j).map g) : withRegs a b k' = (withRegs a b k).map g :=
  withReg_map a fun i => withReg_map b (h i)

theorem ite_map {g : State → State} {c : Prop} [Decidable c] {h h' k k' : Handled} (hh : h' = h.map g)
    (hk : k' = k.map g) : (if c then h' else k') = (if c then h else k).map g := by
  rw [hh, hk, apply_ite (Except.map g)]

theorem writeFromBoth_withUnread (op : Nat → Nat → Nat) (a b : Byte) :
    writeFromBoth op a b (s.withUnread f p) = (writeFromBoth op a b s).map (State.withUnread f p) :=
  withRegs_map a b fun _ _ => rfl

theorem aluMod_withUnread (a b : Byte) :
    aluMod a b (s.withUnread f p) = (aluMod a b s).map (State.withUnread f p) :=
  withRegs_map a b fun _ _ => ite_map rfl rfl

theorem aluNot_withUnread (a b : Byte) :
    aluNot a b (s.withUnread f p) = (aluNot a b s).map (State.withUnread f p) :=
  withReg_map a fun _ => rfl

/-- CMP overwrites `FL`, so only a change that keeps every flag value commutes with it. -/
theorem aluCmp_withUnread (a b : Byte) :
    aluCmp a b (s.withUnread id p) = (aluCmp a b s).map (State.withUnread id p) :=
  withRegs_map a b fun _ _ => rfl

theorem handlePrn_withUnread (a : Byte) :
    handlePrn a (s.withUnread f p) = (handlePrn a s).map (State.withUnread f p) :=
  withReg_map a fun _ => congrArg Except.ok (State.emit_withUnread _)

theorem handleCall_withUnread (a : Byte) :
    handleCall a (s.withUnread f p) = (handleCall a s).map (State.withUnread f p) :=
  withReg_map a fun _ => ite_map rfl rfl

theorem jumpTo_withUnread (a : Byte) :
    jumpTo a (s.withUnread f p) = (jumpTo a s).map (State.withUnread f p) :=
  withReg_map a fun _ => rfl

theorem fallThrough_withUnread :
    fallThrough (s.withUnread f p) = (fallThrough s).map (State.withUnread f p) :=
  ite_map rfl rfl

/-! ### Instructions and steps carry the change through -/

/-- An instruction does the same whatever `FL` and the earlier output hold, if it is no CMP or the flags are kept, and
if it is no JEQ or JNE or the equal-bit-only pattern is as before. -/
theorem exec_withUnread {i : Instr} (hcmp : i.opcode = .cmp → f = id)
    (hjump : i.opcode = .jeq ∨ i.opcode = .jne → (s.withUnread f p).flagsEqual = s.flagsEqual)
    (e : exec i s = .next t) : exec i (s.withUnread f p) = .next (t.withUnread f p) := by
  cases i with
  | nop => rw [exec_nop] at e ⊢; exact finish_withUnread rfl e
  | halt => rw [exec_halt_next e]; rfl
  | ret => rw [exec_ret] at e ⊢; exact finish_withUnread rfl e
  | push a => exact finish_withUnread (withReg_map a fun _ => rfl) e
  | pop a => exact finish_withUnread (withReg_map a fun _ => rfl) e
  | prn a => exact finish_withUnread (handlePrn_withUnread a) e
  | call a => exact finish_withUnread (handleCall_withUnread a) e
  | jmp a => exact finish_withUnread (jumpTo_withUnread a) e
  | jeq a =>
    rw [exec_jeq] at e ⊢; rw [hjump (.inl rfl)]
    exact finish_withUnread (ite_map (jumpTo_withUnread a) fallThrough_withUnread) e
  | jne a =>
    rw [exec_jne] at e ⊢; rw [hjump (.inr rfl)]
    exact finish_withUnread (ite_map fallThrough_withUnread (jumpTo_withUnread a)) e
  | ldi a imm => exact finish_withUnread (withReg_map a fun _ => rfl) e
  | add a b => rw [exec_add] at e ⊢; exact finish_withUnread (writeFromBoth_withUnread _ a b) e
  | mult a b => rw [exec_mult] at e ⊢; exact finish_withUnread (writeFromBoth_withUnread _ a b) e
  | mod a b => rw [exec_mod] at e ⊢; exact finish_withUnread (aluMod_withUnread a b) e
  | cmp a b =>
    obtain rfl := hcmp rfl
    rw [exec_cmp] at e ⊢; exact finish_withUnread (aluCmp_withUnread a b) e
  | and a b => rw [exec_and] at e ⊢; exact finish_withUnread (writeFromBoth_withUnread _ a b) e
  | not a b => rw [exec_not] at e ⊢; exact finish_withUnread (aluNot_withUnread a b) e
  | or a b => rw [exec_or] at e ⊢; exact finish_withUnread (writeFromBoth_withUnread _ a b) e
  | xor a b => rw [exec_xor] at e ⊢; exact finish_withUnread (writeFromBoth_withUnread _ a b) e
  | shl a b => rw [exec_shl] at e ⊢; exact finish_withUnread (writeFromBoth_withUnread _ a b) e
  | shr a b => rw [exec_shr] at e ⊢; exact finish_withUnread (writeFromBoth_withUnread _ a b) e

/-- A step does the same whatever was emitted before it (10_state.md R25). -/
theorem step_withUnread_out (e : step s = .next t) :
    step (s.withUnread id p) = .next (t.withUnread id p) := by
  rcases step_cases e with ⟨hr, rfl⟩ | ⟨hr, i, rest, hd, he⟩ | ⟨hr, err, hd, rfl⟩
  · exact step_of_not_running hr
  · exact (step_of_decode (s := s.withUnread id p) hr hd).trans (exec_withUnread (fun _ => rfl) (fun _ => rfl) he)
  · exact step_of_decode_error (s := s.withUnread id p) hr hd

/-! ### Instructions and steps answer a next state -/

theorem exec_next (i : Instr) (s : State) : ∃ t, exec i s = .next t := by
  cases i with
  | nop | halt | ret => exact ⟨_, rfl⟩
  | _ => exact finish_next _ _ _

theorem step_next (s : State) : ∃ t, step s = .next t := by
  by_cases hr : s.status = .running
  · cases hd : decode s.fetchBytes with
    | ok r => rw [step_of_decode hr hd]; exact exec_next r.1 s
    | error err => exact ⟨_, step_of_decode_error hr hd⟩
  · exact ⟨s, step_of_not_running hr⟩

/-! ### Who writes `FL` and `OUT` -/

/-- Only CMP writes `FL` (10_state.md R19). -/
theorem exec_fl_of_not_cmp {i : Instr} (hi : i.opcode ≠ .cmp) (e : exec i s = .next t) : t.fl = s.fl := by
  rcases exec_outcome e with ⟨-, rfl⟩ | ⟨r, rfl, -⟩ | ⟨-, -, -, hfl, -⟩ | ⟨u, -, -, rfl, -, -, -, hfl, -⟩
  · rfl
  · rfl
  · exact hfl
  · rcases hfl with hfl | ⟨_, _, hc, -⟩
    · rw [State.advance_fl, hfl]
    · exact absurd hc hi

/-- Only PRN adds to `OUT`, and it adds the value of its register (10_state.md R25). -/
theorem exec_out {i : Instr} (e : exec i s = .next t) :
    t.out = s.out ∨ ∃ k, i = .prn (regByte k) ∧ t.out = s.out ++ [s.x k] := by
  rcases exec_outcome e with ⟨-, rfl⟩ | ⟨r, rfl, -⟩ | ⟨-, -, hout, -, -⟩ | ⟨u, -, -, rfl, -, -, hout, -, -⟩
  · exact .inl rfl
  · exact .inl rfl
  · exact .inl hout
  · rwa [State.advance_out]

/-- The same for a step. -/
theorem step_out (e : step s = .next t) :
    t.out = s.out ∨
      ∃ (k : Fin 8) (rest : List Byte), decode s.fetchBytes = .ok (.prn (regByte k), rest) ∧ t.out = s.out ++ [s.x k] := by
  rcases step_cases e with ⟨-, rfl⟩ | ⟨-, i, rest, hd, he⟩ | ⟨-, err, -, rfl⟩
  · exact .inl rfl
  · rcases exec_out he with h | ⟨k, rfl, h⟩
    · exact .inl h
    · exact .inr ⟨k, rest, hd, h⟩
  · exact .inl rfl

/-- What a step emits is what it emits from the same state with an empty `OUT`, put after what was there. -/
theorem step_emits (e : step s = .next t) :
    ∃ emitted, t.out = s.out ++ emitted ∧
      ∀ o : List Word, step { s with out := o } = .next { t with out := o ++ emitted } := by
  obtain ⟨u, hu⟩ : ∃ u, step { s with out := [] } = .next u := step_next _
  have key : ∀ o : List Word, step { s with out := o } = .next (u.withUnread id o) := fun o => by
    simpa [State.withUnread] using step_withUnread_out (p := o) hu
  obtain rfl : u.withUnread id s.out = t := by simpa [e] using (key s.out).symm
  exact ⟨u.out, rfl, key⟩

/-- `run` from Idle empties the output (10_state.md R25). -/
theorem State.run_out_of_idle (h : s.status = .idle) : s.run.out = [] := by
  simp [State.run, h]

end

/-! ### The statements -/

/-- Settles O40: writing by `exec_fl_of_not_cmp`; reading by rewriting `FL` to `v` through the instruction. -/
theorem flagsAreWrittenByCompareAndReadByJumps : Obligations.FlagsAreWrittenByCompareAndReadByJumps := by
  refine ⟨fun s t i hi e => exec_fl_of_not_cmp hi e, ?_, ?_, ?_⟩
  · intro s t i v hcmp hjeq hjne e
    exact exec_withUnread (f := fun _ => v) (p := []) (fun h => absurd h hcmp)
      (fun h => absurd h (not_or.2 ⟨hjeq, hjne⟩)) e
  · intro s t i v hjump hv e
    have hcmp : i.opcode ≠ .cmp := by rcases hjump with h | h <;> simp [h]
    have hfl : (s.withUnread (fun _ => v) []).flagsEqual = s.flagsEqual := by
      rw [Bool.eq_iff_iff, State.flagsEqual_iff, State.flagsEqual_iff]
      exact hv
    exact exec_withUnread (f := fun _ => v) (p := []) (fun h => absurd h hcmp) (fun _ => hfl) e
  · intro s a b v
    simp only [exec_cmp, aluCmp, withRegs_regByte]
    rfl

/-- Settles O42: the writer of `OUT` by `step_out`; that nothing reads it by moving the earlier output through the step. -/
theorem outputIsAppendedByPrnAndReadByNothing : Obligations.OutputIsAppendedByPrnAndReadByNothing :=
  ⟨fun _ _ => step_out, fun _ _ => step_emits, fun _ => rfl, fun _ => State.run_out_of_idle⟩

end Sys2Proof.Machine
end

section
/-! PROOFS. Who writes memory during a run (20_memory.md R44): PUSH and CALL, and each writes one byte. -/

namespace Sys2Proof.Machine

/-- An instruction keeps memory, or it is PUSH or CALL and writes one byte (42_stack_control.md R90, R92). -/
theorem exec_mem {i : Instr} {s t : State} (e : exec i s = .next t) :
    t.mem = s.mem ∨ ∃ (b : Byte) (a v : Word), (i = .push b ∨ i = .call b) ∧ t.mem = (s.writeByte a v).mem := by
  rcases exec_outcome e with ⟨-, rfl⟩ | ⟨r, rfl, -⟩ | ⟨-, -, -, -, hmem⟩ | ⟨u, -, -, rfl, -, -, -, -, hmem⟩
  · exact .inl rfl
  · exact .inl rfl
  · rcases hmem with hmem | ⟨b, a, v, hi, hmem⟩
    · exact .inl hmem
    · exact .inr ⟨b, a, v, .inr hi, hmem⟩
  · rw [State.advance_mem]
    rcases hmem with hmem | ⟨b, a, v, hi, hmem⟩
    · exact .inl hmem
    · exact .inr ⟨b, a, v, .inl hi, hmem⟩

/-- The same for a step: without a decoded instruction it keeps memory. -/
theorem step_mem {s t : State} (e : step s = .next t) :
    t.mem = s.mem ∨ ∃ (i : Instr) (rest : List Byte) (b : Byte) (a v : Word),
      decode s.fetchBytes = .ok (i, rest) ∧ (i = .push b ∨ i = .call b) ∧ t.mem = (s.writeByte a v).mem := by
  rcases step_cases e with ⟨-, rfl⟩ | ⟨-, i, rest, hd, he⟩ | ⟨-, err, -, rfl⟩
  · exact .inl rfl
  · rcases exec_mem he with h | ⟨b, a, v, hi, h⟩
    · exact .inl h
    · exact .inr ⟨i, rest, b, a, v, hd, hi, h⟩
  · exact .inl rfl

/-- Settles O41: a step that changes memory runs, by `step_mem`, a decoded PUSH or CALL. -/
theorem onlyPushAndCallWriteMemory : Obligations.OnlyPushAndCallWriteMemory := by
  intro s t e hne
  obtain ⟨i, rest, b, -, -, hd, hi, -⟩ := (step_mem e).resolve_left hne
  rcases hi with rfl | rfl
  · exact ⟨b, rest, .inl hd⟩
  · exact ⟨b, rest, .inr hd⟩

end Sys2Proof.Machine
end

section
/-! PROOFS. The two-register ALU instructions ADD, MULT, MOD, AND, OR and XOR (41_alu.md R76 to R81). Each statement has
an encoding part, a completing part and a register check, and each part is proved once for every such instruction. -/

namespace Sys2Proof.Machine

/-! ### Encoding -/

/-- An opcode with two operand bytes has the format `RR` or `RI` (30_encoding.md R47). -/
theorem formatRR_of_nopsColumn {o : Opcode} (h : o.nopsColumn = 2) : FormatRR o.byte o.instr := by
  intro a b rest
  simp [decode_cons, decodeOperands, Opcode.need_eq_nopsColumn, h]

/-! ### The register check -/

theorem withRegs_above_left {a : Byte} (h : 7 < a.toNat) (b : Byte) (k : Fin 8 → Fin 8 → Handled) :
    withRegs a b k = .error ⟨.regIndex, infoOfByte a⟩ :=
  withReg_above h _

theorem withRegs_above_right {a b : Byte} (ha : a.toNat ≤ 7) (hb : 7 < b.toNat) (k : Fin 8 → Fin 8 → Handled) :
    withRegs a b k = .error ⟨.regIndex, infoOfByte b⟩ := by
  obtain ⟨i, rfl⟩ := exists_regByte (Nat.lt_succ_of_le ha)
  exact (withReg_regByte i _).trans (withReg_above hb _)

/-- An instruction that uses both operand bytes as register indices, whatever it then does, checks both. -/
theorem checksBothRegisters_of_withRegs {o : Opcode} {ins : Byte → Byte → Instr}
    {k : State → Byte → Fin 8 → Fin 8 → Handled}
    (he : ∀ a b s, exec (ins a b) s = finish o s (withRegs a b (k s b))) : ChecksBothRegisters ins := by
  intro s a b
  refine ⟨fun ha => ?_, fun ha hb => ?_⟩
  · rw [he, withRegs_above_left ha]; rfl
  · rw [he, withRegs_above_right ha hb]; rfl

/-! ### The completing form -/

/-- A register write and an advance by three that fits are all that `WritesRegisterOnly` allows. -/
theorem writesRegisterOnly_of_setX {ins : Instr} {s : State} {i : Fin 8} {v : Word} (hpc : s.pc.toNat ≤ 252)
    (he : exec ins s = .next ((s.setX i v).advance 3)) : WritesRegisterOnly ins s i v.toNat := by
  have hfit : (s.setX i v).pc.toNat + 3 ≤ 255 := by rw [State.setX_pc]; omega
  rw [State.advance_of_le hfit] at he
  refine ⟨_, he, ?_, toNat_narrow_of_lt (Nat.lt_succ_of_le hfit), fun k hk => ?_, fun _ => rfl, rfl, rfl, rfl⟩
  · rw [State.setPc_x, State.setX_x_same]
  · rw [State.setPc_x, State.setX_x_other _ _ _ _ fun h => hk (by simp [h])]

/-- An instruction of two operand bytes whose handler is `writeFromBoth op` computes `op` modulo 256 (41_alu.md R86). -/
theorem computesFromBoth_of_writeFromBoth {o : Opcode} {op g : Nat → Nat → Nat} (hs : o.selfposColumn = false)
    (hn : o.nopsColumn = 2) (he : ∀ a b s, exec (o.instr a b) s = finish o s (writeFromBoth op a b s))
    (hg : ∀ x y, x < 2 ^ 8 → y < 2 ^ 8 → op x y % 256 = g x y) : ComputesFromBoth o.byte o.instr g := by
  refine ⟨formatRR_of_nopsColumn hn, fun s i j hpc => ?_, checksBothRegisters_of_withRegs he⟩
  rw [← hg _ _ (s.x i).isLt (s.x j).isLt, ← toNat_narrow]
  refine writesRegisterOnly_of_setX hpc ?_
  rw [he, writeFromBoth, withRegs_regByte, finish_ok_auto hs, hn]

/-- The same for an operation that never leaves the byte range: nothing is lost modulo 256. -/
theorem computesFromBoth_of_writeFromBoth_of_lt {o : Opcode} {op : Nat → Nat → Nat} (hs : o.selfposColumn = false)
    (hn : o.nopsColumn = 2) (he : ∀ a b s, exec (o.instr a b) s = finish o s (writeFromBoth op a b s))
    (hlt : ∀ x y, x < 2 ^ 8 → y < 2 ^ 8 → op x y < 2 ^ 8) : ComputesFromBoth o.byte o.instr op :=
  computesFromBoth_of_writeFromBoth hs hn he fun x y hx hy => Nat.mod_eq_of_lt (hlt x y hx hy)

/-! ### MOD -/

/-- With a nonzero divisor MOD writes the remainder and advances (41_alu.md R78). -/
theorem exec_mod_of_ne_zero {s : State} {i j : Fin 8} (h : s.x j ≠ 0) :
    exec (.mod (regByte i) (regByte j)) s = .next ((s.setX i (s.x i % s.x j)).advance 3) := by
  have hv : narrow ((s.x i).toNat % (s.x j).toNat) = s.x i % s.x j := by
    rw [narrow, ← BitVec.toNat_umod, BitVec.ofNat_toNat, BitVec.setWidth_eq]
  rw [exec_mod, aluMod, withRegs_regByte, if_neg h, finish_ok_auto rfl, hv]
  rfl

/-- With a zero divisor MOD raises `DivideByZero` with its second operand byte (60_exceptions.md R114). -/
theorem exec_mod_of_eq_zero {s : State} {i j : Fin 8} (h : s.x j = 0) :
    exec (.mod (regByte i) (regByte j)) s = .next (s.raise ⟨.divideByZero, infoOfByte (regByte j)⟩) := by
  rw [exec_mod, aluMod, withRegs_regByte, if_pos h, finish_error]

/-- The byte of a register index is that index in `STATUS.info`. -/
theorem infoOfByte_regByte (j : Fin 8) : infoOfByte (regByte j) = BitVec.ofNat 9 j.val := by
  refine BitVec.eq_of_toNat_eq ?_
  rw [infoOfByte, BitVec.toNat_setWidth, toNat_regByte, BitVec.toNat_ofNat]

/-! ### The statements -/

/-- Settles O12: the handler of ADD is `writeFromBoth` of addition. -/
theorem addWritesTheSumModulo256 : Obligations.AddWritesTheSumModulo256 :=
  computesFromBoth_of_writeFromBoth (o := .add) rfl rfl exec_add fun _ _ _ _ => rfl

/-- Settles O13: the handler of MULT is `writeFromBoth` of multiplication. -/
theorem multWritesTheProductModulo256 : Obligations.MultWritesTheProductModulo256 :=
  computesFromBoth_of_writeFromBoth (o := .mult) rfl rfl exec_mult fun _ _ _ _ => rfl

/-- Settles O14: the remainder by `exec_mod_of_ne_zero`, the fault by `exec_mod_of_eq_zero`; the register check comes
before the divisor is looked at. -/
theorem modWritesTheRemainderOrFaults : Obligations.ModWritesTheRemainderOrFaults := by
  refine ⟨formatRR_of_nopsColumn (o := .mod) rfl, fun s i j hpc hne => ?_, fun s i j hz => ?_,
    checksBothRegisters_of_withRegs exec_mod⟩
  · rw [← BitVec.toNat_umod]
    exact writesRegisterOnly_of_setX hpc (exec_mod_of_ne_zero hne)
  · rw [exec_mod_of_eq_zero hz, infoOfByte_regByte]
    rfl

/-- Settles O15: the bitwise operations stay below 256. -/
theorem bitwiseOperationsWriteTheirResult : Obligations.BitwiseOperationsWriteTheirResult :=
  ⟨computesFromBoth_of_writeFromBoth_of_lt (o := .and) rfl rfl exec_and fun x _ _ hy => Nat.and_lt_two_pow x hy,
    computesFromBoth_of_writeFromBoth_of_lt (o := .or) rfl rfl exec_or fun _ _ => Nat.or_lt_two_pow,
    computesFromBoth_of_writeFromBoth_of_lt (o := .xor) rfl rfl exec_xor fun _ _ => Nat.xor_lt_two_pow⟩

end Sys2Proof.Machine
end

section
/-! PROOFS. RET, JMP, JEQ and JNE (42_stack_control.md R93 to R96). The three jumps end a step after one of two shared
handlers, `jumpTo` and `fallThrough`; what a step does after each is proved once, for every opcode that positions `pc`. -/

namespace Sys2Proof.Machine

/-! ### Encoding -/

/-- An opcode without operand bytes has the format `Z` (30_encoding.md R47). -/
theorem formatZ_of_nopsColumn {o : Opcode} (h : o.nopsColumn = 0) : FormatZ o.byte (o.instr 0 0) := by
  intro rest
  simp [decode_cons, decodeOperands, Opcode.need_eq_nopsColumn, h]

/-- An opcode with one operand byte has the format `R` (30_encoding.md R47). -/
theorem formatR_of_nopsColumn {o : Opcode} (h : o.nopsColumn = 1) : FormatR o.byte (fun a => o.instr a 0) := by
  intro a rest
  simp [decode_cons, decodeOperands, Opcode.need_eq_nopsColumn, h]

/-! ### The end of a step after a jump -/

section
variable {o : Opcode} {s : State} {a : Byte}

/-- A jump through a register sets `pc` and nothing else (42_stack_control.md R94). -/
theorem finish_jumpTo_regByte (ho : o.selfposColumn = true) (i : Fin 8) :
    finish o s (jumpTo (regByte i) s) = .next (s.setPc (s.x i)) := by
  rw [jumpTo, withReg_regByte, finish_ok_self ho]

/-- A jump through a byte that names no register faults (40_dispatcher.md R64). -/
theorem finish_jumpTo_above (h : 7 < a.toNat) :
    finish o s (jumpTo a s) = .next (s.raise ⟨.regIndex, infoOfByte a⟩) := by
  rw [jumpTo, withReg_above h, finish_error]

/-- A fall-through that fits sets `pc` and nothing else (40_dispatcher.md R67). -/
theorem finish_fallThrough_of_le (ho : o.selfposColumn = true) (h : s.pc.toNat ≤ 253) :
    finish o s (fallThrough s) = .next (s.setPc (narrow (s.pc.toNat + 2))) := by
  rw [fallThrough, if_pos (Nat.add_le_add_right h 2), finish_ok_self ho]

/-- A fall-through from address 254 faults (42_stack_control.md R95). -/
theorem finish_fallThrough_of_eq (h : s.pc.toNat = 254) :
    finish o s (fallThrough s) = .next (s.raise ⟨.pcAdvance, 256⟩) := by
  have hpc : s.pcPlus 2 = 256 := by rw [State.pcPlus, h]
  rw [fallThrough, hpc, if_neg (by decide), finish_error]
  rfl

end

/-! ### The conditional jumps -/

/-- Instruction `ins` jumps from `s`: to what its register holds, with the register byte checked. -/
def Jumps (ins : Byte → Instr) (s : State) : Prop :=
  (∀ i : Fin 8, exec (ins (regByte i)) s = .next { s with pc := s.x i }) ∧
  (∀ a : Byte, 7 < a.toNat → exec (ins a) s = .next { s with status := .faulted .regIndex (a.setWidth 9) })

/-- Instruction `ins` falls through from `s`, whatever its operand byte. -/
def FallsThrough (ins : Byte → Instr) (s : State) : Prop :=
  ∀ a : Byte,
    (s.pc.toNat ≤ 253 → ∃ t, exec (ins a) s = .next t ∧ t.pc.toNat = s.pc.toNat + 2 ∧ t = { s with pc := t.pc }) ∧
    (s.pc.toNat = 254 → exec (ins a) s = .next { s with status := .faulted .pcAdvance 256 })

section
variable {o : Opcode} {ins : Byte → Instr} {s : State}

theorem jumps_of_jumpTo (ho : o.selfposColumn = true) (he : ∀ a, exec (ins a) s = finish o s (jumpTo a s)) :
    Jumps ins s :=
  ⟨fun i => (he _).trans (finish_jumpTo_regByte ho i), fun a ha => (he a).trans (finish_jumpTo_above ha)⟩

theorem fallsThrough_of_fallThrough (ho : o.selfposColumn = true)
    (he : ∀ a, exec (ins a) s = finish o s (fallThrough s)) : FallsThrough ins s := by
  refine fun a => ⟨fun h => ?_, fun h => (he a).trans (finish_fallThrough_of_eq h)⟩
  exact ⟨_, (he a).trans (finish_fallThrough_of_le ho h), toNat_narrow_of_lt (by omega), rfl⟩

theorem jmp_jumps (s : State) : Jumps .jmp s := jumps_of_jumpTo (o := .jmp) rfl fun a => exec_jmp a s

theorem jeq_jumps (h : s.fl = 0x01) : Jumps .jeq s :=
  jumps_of_jumpTo (o := .jeq) rfl fun a => by rw [exec_jeq, if_pos (s.flagsEqual_iff.2 h)]

theorem jeq_fallsThrough (h : s.fl ≠ 0x01) : FallsThrough .jeq s :=
  fallsThrough_of_fallThrough (o := .jeq) rfl fun a => by rw [exec_jeq, if_neg (mt s.flagsEqual_iff.1 h)]

theorem jne_jumps (h : s.fl ≠ 0x01) : Jumps .jne s :=
  jumps_of_jumpTo (o := .jne) rfl fun a => by rw [exec_jne, if_neg (mt s.flagsEqual_iff.1 h)]

theorem jne_fallsThrough (h : s.fl = 0x01) : FallsThrough .jne s :=
  fallsThrough_of_fallThrough (o := .jne) rfl fun a => by rw [exec_jne, if_pos (s.flagsEqual_iff.2 h)]

end

/-! ### CALL and RET -/

/-- RET completes from every state (42_stack_control.md R93). -/
theorem exec_ret_eq (s : State) : exec .ret s = .next (s.setPc (s.readByte s.sp)).incSp := by
  rw [exec_ret, handleRet, finish_ok_self rfl]

/-- CALL through a register completes when the return address is an address (42_stack_control.md R92). -/
theorem exec_call_of_le {s : State} (h : s.pc.toNat ≤ 253) (i : Fin 8) :
    exec (.call (regByte i)) s =
      .next ((s.decSp.storeAtSp (narrow (s.pc.toNat + 2))).setPc (s.decSp.x i)) := by
  rw [exec_call, handleCall, withReg_regByte, if_pos (Nat.add_le_add_right h 2), finish_ok_self rfl]

/-- The byte stored at `SP` is what is read there. -/
theorem State.storeAtSp_readByte_sp {s : State} (hs : Memory.wf s.mem = true) (v : Byte) :
    (s.storeAtSp v).readByte s.sp = v :=
  Memory.read_write_same hs _ v

/-! ### The statements -/

/-- Settles O24: the frame of RET by `exec_ret_eq`; after a CALL the byte at `SP` is the return address just stored, and
the increment of `SP` undoes the decrement. -/
theorem retPopsThePc : Obligations.RetPopsThePc := by
  refine ⟨formatZ_of_nopsColumn (o := .ret) rfl, fun s => ?_, fun s i hwf hpc => ?_⟩
  · exact ⟨_, exec_ret_eq s, rfl, (s.setPc _).incSp_sp, fun k hk => State.incSp_x_other _ k fun h => hk (by simp [h]),
      fun _ => rfl, rfl, rfl, rfl⟩
  · refine ⟨_, _, exec_call_of_le hpc i, exec_ret_eq _, ?_, ?_⟩
    · calc ((s.decSp.storeAtSp (narrow (s.pc.toNat + 2))).readByte s.decSp.sp).toNat
        _ = (narrow (s.pc.toNat + 2)).toNat := congrArg _ (State.storeAtSp_readByte_sp (s := s.decSp) hwf _)
        _ = s.pc.toNat + 2 := toNat_narrow_of_lt (by omega)
    · calc (State.incSp _).sp
        _ = s.decSp.sp + 1 := State.incSp_sp _
        _ = s.sp := by rw [State.decSp_sp, BitVec.sub_add_cancel]

/-- Settles O25: JMP is the taken jump from every state. -/
theorem jmpGoesToTheRegister : Obligations.JmpGoesToTheRegister :=
  ⟨formatR_of_nopsColumn (o := .jmp) rfl, fun s => (jmp_jumps s).1, fun s => (jmp_jumps s).2⟩

/-- Settles O26: JEQ is the taken jump when `FL` is the equal pattern and the fall-through otherwise. -/
theorem jeqJumpsOnTheEqualPattern : Obligations.JeqJumpsOnTheEqualPattern :=
  ⟨formatR_of_nopsColumn (o := .jeq) rfl, fun _ => ⟨jeq_jumps, jeq_fallsThrough⟩⟩

/-- Settles O27: JNE is the fall-through when `FL` is the equal pattern and the taken jump otherwise. -/
theorem jneJumpsOnAnyOtherPattern : Obligations.JneJumpsOnAnyOtherPattern :=
  ⟨formatR_of_nopsColumn (o := .jne) rfl, fun _ => ⟨jne_jumps, jne_fallsThrough⟩⟩

end Sys2Proof.Machine
end

section
/-! PROOFS. LDI and NOP (43_simple.md R101, R103): what a completed instruction does at the end of the address space,
the check of a single register operand, and the operand fetch that runs past address 255. -/

namespace Sys2Proof.Machine

/-! ### Operand fetch past the end of memory (40_dispatcher.md R63) -/

/-- Operand fetch over too few bytes stops at the first one that is not there. -/
theorem decodeOperands_of_short {o : Opcode} {rest : List Byte} (h : rest.length < o.need) :
    decodeOperands o rest = .error (.missingByte (rest.length + 1)) := by
  rcases decodeOperands_cases o rest with ⟨hn, -⟩ | ⟨-, rfl, e⟩ | ⟨a, rest1, hn, rfl, -⟩ | ⟨a, -, rfl, e⟩ |
    ⟨a, b, rest2, hn, rfl, -⟩
  · omega
  · exact e
  · rw [hn, List.length_cons] at h; omega
  · exact e
  · rw [hn, List.length_cons, List.length_cons] at h; omega

/-- The fetch reaches the opcode byte and up to two more, as far as there are addresses (20_memory.md R34). -/
theorem State.fetchBytes_eq (s : State) :
    ∃ rest, s.fetchBytes = s.readByte s.pc :: rest ∧ rest.length = min 2 (255 - s.pc.toNat) := by
  refine ⟨_, rfl, ?_⟩
  unfold State.pcPlus Config.topAddress
  split_ifs <;> simp only [List.length_cons, List.length_nil] <;> omega

/-- An instruction whose operands would end above address 255 is `AddressFault(OperandFetch, 256)`. -/
theorem step_of_operands_past_end {s : State} {o : Opcode} (hr : s.status = .running)
    (ho : Opcode.ofByte (s.readByte s.pc) = some o) (h : 255 < s.pc.toNat + o.nopsColumn) :
    step s = .next (s.raise ⟨.operandFetch, 256⟩) := by
  obtain ⟨rest, hf, hlen⟩ := s.fetchBytes_eq
  have hneed := o.need_eq_nopsColumn
  have hle := o.need_le_two
  have hpc := s.pc.isLt
  have hd : decode s.fetchBytes = .error (.missingByte (rest.length + 1)) := by
    rw [hf, decode_cons, ho]
    exact decodeOperands_of_short (by omega)
  have haddr : s.pcPlus (rest.length + 1) = 256 := by rw [State.pcPlus]; omega
  rw [step_of_decode_error hr hd, State.fetchFault, haddr]
  rfl

/-! ### The register check -/

/-- An instruction that uses its one operand byte as a register index, whatever it then does, checks it. -/
theorem checksRegister_of_withReg {o : Opcode} {ins : Byte → Instr} {k : State → Fin 8 → Handled}
    (he : ∀ a s, exec (ins a) s = finish o s (withReg a (k s))) : ChecksRegister ins := by
  intro s a ha
  rw [he, withReg_above ha]
  rfl

/-! ### Completed instructions -/

/-- An advance that ends at address 256 is `AddressFault(PcAdvance, 256)` (40_dispatcher.md R66). -/
theorem State.advance_of_eq {s : State} {k : Nat} (h : s.pc.toNat + k = 256) :
    s.advance k = s.raise ⟨.pcAdvance, 256⟩ := by
  rw [State.advance_of_gt (by omega), h]
  rfl

theorem exec_nop_eq (s : State) : exec .nop s = .next (s.advance 1) := by
  rw [exec_nop, finish_ok_auto rfl]
  rfl

theorem exec_ldi_regByte (s : State) (i : Fin 8) (v : Byte) :
    exec (.ldi (regByte i) v) s = .next ((s.setX i v).advance 3) := by
  rw [exec_ldi, handleLdi, withReg_regByte, finish_ok_auto rfl]
  rfl

/-! ### The statements -/

/-- Settles O31: the write and its frame hold however the advance ends; the advance fits up to 252 and ends at address
256 from 253; from 254 on the second operand byte is missing. -/
theorem ldiLoadsTheImmediate : Obligations.LdiLoadsTheImmediate := by
  refine ⟨formatRR_of_nopsColumn (o := .ldi) rfl, fun s i v _ => ?_,
    fun v => checksRegister_of_withReg fun a s => exec_ldi a v s, fun s hr hop hpc => ?_⟩
  · refine ⟨_, exec_ldi_regByte s i v, ?_, fun k hk => ?_, fun c => ?_, ?_, ?_, fun h => ?_, fun h => ?_⟩
    · rw [State.advance_x, State.setX_x_same]
    · rw [State.advance_x, State.setX_x_other _ _ _ _ fun e => hk (by simp [e])]
    · rw [State.readByte, State.advance_mem, State.setX_mem, State.readByte]
    · rw [State.advance_fl, State.setX_fl]
    · rw [State.advance_out, State.setX_out]
    · have hfit : (s.setX i v).pc.toNat + 3 ≤ 255 := Nat.add_le_add_right h 3
      rw [State.advance_of_le hfit]
      exact ⟨toNat_narrow_of_lt (Nat.lt_succ_of_le hfit), rfl⟩
    · have hend : (s.setX i v).pc.toNat + 3 = 256 := congrArg (· + 3) h
      rw [State.advance_of_eq hend]
      exact ⟨rfl, rfl⟩
  · have ho : Opcode.ofByte (s.readByte s.pc) = some .ldi := hop ▸ Opcode.ofByte_byte .ldi
    exact step_of_operands_past_end hr ho (Nat.add_le_add_right hpc 2)

/-- Settles O33: NOP is an advance by one, which fits up to 254 and ends at address 256 from 255. -/
theorem nopOnlyAdvances : Obligations.NopOnlyAdvances := by
  refine ⟨formatZ_of_nopsColumn (o := .nop) rfl, fun s => ⟨fun h => ?_, fun h => ?_⟩⟩
  · have hfit : s.pc.toNat + 1 ≤ 255 := Nat.add_le_add_right h 1
    rw [exec_nop_eq, State.advance_of_le hfit]
    exact ⟨_, rfl, toNat_narrow_of_lt (Nat.lt_succ_of_le hfit), rfl⟩
  · have hend : s.pc.toNat + 1 = 256 := congrArg (· + 1) h
    rw [exec_nop_eq, State.advance_of_eq hend]
    rfl

end Sys2Proof.Machine
end

section
/-! PROOFS. `DivideByZero` (60_exceptions.md R114): which of the faults that `exec_outcome` allows an instruction carry this
cause, and which of them an ALU operation on registers in range can raise. -/

namespace Sys2Proof.Machine

/-! ### The fault raised before any effect -/

/-- MOD with a zero right-hand register is the one instruction that raises `DivideByZero`. -/
theorem RaisesEarly.mod_of_divideByZero {i : Instr} {s : State} {r : Raised} (h : RaisesEarly i s r)
    (hc : r.cause = .divideByZero) :
    ∃ d j : Fin 8, i = .mod (regByte d) (regByte j) ∧ s.x j = 0 ∧ r = ⟨.divideByZero, infoOfByte (regByte j)⟩ := by
  rcases h with ⟨-, c, -, -, rfl⟩ | h | ⟨-, -, rfl⟩ | ⟨-, -, rfl⟩
  · cases hc
  · exact h
  · cases hc
  · cases hc

/-- MOD is the one ALU operation that raises a fault of its own on registers in range. -/
theorem RaisesEarly.opcode_eq_mod_of_isAlu {i : Instr} {s : State} {r : Raised} (h : RaisesEarly i s r)
    (hwf : i.wellFormed = true) (halu : i.opcode.isAlu = true) : i.opcode = .mod := by
  rcases h with ⟨hill, -⟩ | ⟨d, j, rfl, -, -⟩ | ⟨ho, -, -⟩ | ⟨ho | ho, -, -⟩
  · cases hill.symm.trans hwf
  · rfl
  all_goals rw [ho] at halu; cases halu

/-! ### The fault raised by the advance -/

theorem State.advance_status_of_le {s : State} {k : Nat} (h : s.pc.toNat + k ≤ 255) :
    (s.advance k).status = s.status := by
  rw [State.advance_of_le h, State.setPc_status]

/-- The advance raises `AddressFault(PcAdvance)` or nothing. -/
theorem State.status_of_advance_faulted {s : State} {k : Nat} {c : FaultCause} {info : Info} (hc : c ≠ .pcAdvance)
    (h : (s.advance k).status = .faulted c info) : s.status = .faulted c info := by
  rcases s.advance_cases k with ⟨-, e⟩ | ⟨-, e⟩ <;> rw [e] at h
  · exact h
  · cases h; exact absurd rfl hc

/-! ### Instructions -/

/-- A running instruction that ends in `DivideByZero` took that fault before any effect (60_exceptions.md R117). -/
theorem exec_divideByZero {i : Instr} {s t : State} {info : Info} (hr : s.status = .running) (e : exec i s = .next t)
    (ht : t.status = .faulted .divideByZero info) :
    t = s.raise ⟨.divideByZero, info⟩ ∧ RaisesEarly i s ⟨.divideByZero, info⟩ := by
  rcases exec_outcome e with ⟨-, rfl⟩ | ⟨⟨c, info'⟩, rfl, he⟩ | ⟨-, hs, -⟩ | ⟨u, -, -, rfl, -, hs, -⟩
  · cases ht
  · cases ht; exact ⟨rfl, he⟩
  · cases (hs.trans hr).symm.trans ht
  · cases (hs.trans hr).symm.trans (State.status_of_advance_faulted (by decide) ht)

/-- An ALU operation on registers in range, other than MOD, keeps `STATUS` where its advance fits. -/
theorem exec_status_of_isAlu {i : Instr} {s t : State} (hwf : i.wellFormed = true) (halu : i.opcode.isAlu = true)
    (hmod : i.opcode ≠ .mod) (hpc : s.pc.toNat ≤ 252) (e : exec i s = .next t) : t.status = s.status := by
  rcases exec_outcome e with ⟨rfl, -⟩ | ⟨r, -, he⟩ | ⟨-, hs, -⟩ | ⟨u, -, -, rfl, hupc, hs, -⟩
  · cases halu
  · exact absurd (he.opcode_eq_mod_of_isAlu hwf halu) hmod
  · exact hs
  · have hfit : u.pc.toNat + (i.opcode.nopsColumn + 1) ≤ 255 := by
      have hlen : i.opcode.nopsColumn ≤ 2 := i.opcode.need_eq_nopsColumn ▸ i.opcode.need_le_two
      rw [hupc]; omega
    exact (State.advance_status_of_le hfit).trans hs

/-- Settles O20: only MOD carries this cause, among the early faults, and the advance never does; an ALU operation in
range that is no MOD raises no early fault, and its advance fits. -/
theorem onlyModByZeroIsAnArithmeticFault : Obligations.OnlyModByZeroIsAnArithmeticFault := by
  refine ⟨fun s t i info hr e ht => ?_, fun s d j hz => ?_, fun s i hwf halu hmod hpc => ?_⟩
  · obtain ⟨rfl, he⟩ := exec_divideByZero hr e ht
    obtain ⟨d, j, hi, hz, hinfo⟩ := he.mod_of_divideByZero rfl
    exact ⟨d, j, hi, hz, (congrArg Raised.info hinfo).trans (infoOfByte_regByte j), rfl⟩
  · rw [exec_mod_of_eq_zero hz, infoOfByte_regByte]
    rfl
  · obtain ⟨t, e⟩ := exec_next i s
    exact ⟨t, e, exec_status_of_isAlu hwf halu hmod hpc e⟩

end Sys2Proof.Machine
end

section
/-! PROOFS. Reset and the start of a run (70_reset_and_hazards.md R130, R132, R133): what `run` answers in each status, and
what the registers and the memory hold after `reset`. -/

namespace Sys2Proof.Machine

/-! ### `run` by status -/

theorem State.run_of_idle {s : State} (h : s.status = .idle) :
    s.run = { s with pc := 0, out := [], status := .running } := by
  rw [State.run, h]
  rfl

/-- `run` outside Idle is ignored (10_state.md R21). -/
theorem State.run_of_not_idle {s : State} (h : s.status ≠ .idle) : s.run = s := by
  unfold State.run
  split
  · exact absurd ‹_› h
  all_goals rfl

/-! ### After `reset` -/

/-- The reset values of the registers (10_state.md R27). -/
theorem resetWith_x (mem0 : Vector Byte 256) (k : Fin 8) : (resetWith mem0).x k = if k = 7 then 0xF4 else 0x00 :=
  (by decide : ∀ k, State.reset.x k = if k = 7 then 0xF4 else 0x00) k

/-- The total function `MEM0` of 70_reset_and_hazards.md R132. -/
theorem Memory.read_ofImage (img : Vector Byte 256) (a : Fin 256) : Memory.read (Memory.ofImage img) a = img[a] := by
  have hlen : a.val < img.toList.length := by rw [Vector.length_toList]; exact a.isLt
  calc Memory.read (Memory.ofImage img) a
    _ = Memory.read (Memory.ofImage img) (0 + a) := by rw [Nat.zero_add]
    _ = img.toList[a.val] := Memory.read_storeBytes_at rfl 0 _ a hlen (by rw [Nat.zero_add]; exact a.isLt)
    _ = img[a] := Vector.getElem_toList hlen

theorem resetWith_readByte (mem0 : Vector Byte 256) (a : Fin 256) :
    (resetWith mem0).readByte (BitVec.ofNat 8 a.val) = mem0[a] := by
  rw [State.readByte, BitVec.toNat_ofNat, Nat.mod_eq_of_lt a.isLt]
  exact Memory.read_ofImage mem0 a

/-- Settles O49: `run` by the status; after `reset`, `run` keeps the registers, `FL` and the memory that `reset` gave. -/
theorem runStartsAtZeroFromIdle : Obligations.RunStartsAtZeroFromIdle := by
  refine ⟨fun s h => congrArg some (State.run_of_idle h), fun s h => congrArg some (State.run_of_not_idle h),
    fun mem0 => ?_⟩
  have hrun : (resetWith mem0).host .run = some { resetWith mem0 with pc := 0, out := [], status := .running } :=
    congrArg some (State.run_of_idle rfl)
  exact ⟨_, hrun, resetWith_x mem0, rfl, rfl, rfl, resetWith_readByte mem0⟩

end Sys2Proof.Machine
end

section
/-! PROOFS. The encoder and the decoder undo one another (30_encoding.md R47, R52), and the constraints on the opcode
table (30_encoding.md R51). -/

namespace Sys2Proof

open Machine

/-! ### Operand fetch and operand bytes -/

/-- The operand bytes of a mnemonic with `a` and `b` put in are as many of the two as it needs. -/
theorem Opcode.operandBytes_instr (o : Opcode) (a b : Byte) : (o.instr a b).operandBytes = [a, b].take o.need := by
  cases o <;> rfl

/-- Operand fetch that answers an instruction took exactly that instruction's operand bytes. -/
theorem decodeOperands_eq_ok {o : Opcode} {bs rest : List Byte} {i : Instr}
    (h : decodeOperands o bs = .ok (i, rest)) : i.opcode = o ∧ bs = i.operandBytes ++ rest := by
  rcases decodeOperands_cases o bs with ⟨hn, e⟩ | ⟨-, -, e⟩ | ⟨a, rest1, hn, rfl, e⟩ | ⟨a, -, -, e⟩ |
    ⟨a, b, rest2, hn, rfl, e⟩ <;> rw [e] at h
  · cases h
    exact ⟨o.opcode_instr _ _, by rw [o.operandBytes_instr, hn]; rfl⟩
  · cases h
  · cases h
    exact ⟨o.opcode_instr _ _, by rw [o.operandBytes_instr, hn]; rfl⟩
  · cases h
  · cases h
    exact ⟨o.opcode_instr _ _, by rw [o.operandBytes_instr, hn]; rfl⟩

/-! ### The round trip -/

/-- By the format of the instruction: `Z`, `R`, and `RR` or `RI`. -/
theorem decode_encode (i : Instr) (rest : List Byte) : decode (encode i ++ rest) = .ok (i, rest) := by
  cases i with
  | nop | halt | ret => exact formatZ_of_nopsColumn rfl rest
  | push a | pop a | prn a | call a | jmp a | jeq a | jne a => exact formatR_of_nopsColumn rfl a rest
  | ldi a b | add a b | mult a b | mod a b | cmp a b | and a b | not a b | or a b | xor a b | shl a b | shr a b =>
    exact formatRR_of_nopsColumn rfl a b rest

theorem eq_encode_of_decode {bs rest : List Byte} {i : Instr} (h : decode bs = .ok (i, rest)) :
    bs = encode i ++ rest := by
  cases bs with
  | nil => cases h
  | cons op operands =>
    rw [decode_cons] at h
    cases ho : Opcode.ofByte op with
    | none => rw [ho] at h; cases h
    | some o =>
      rw [ho] at h
      obtain ⟨rfl, rfl⟩ := decodeOperands_eq_ok h
      rw [encode, List.cons_append, Opcode.byte_of_ofByte ho]

/-! ### The opcode table -/

theorem Opcode.mem_all (o : Opcode) : o ∈ Opcode.all := by
  cases o <;> decide

theorem Opcode.nopsColumn_le_two (o : Opcode) : o.nopsColumn ≤ 2 :=
  o.need_eq_nopsColumn ▸ o.need_le_two

theorem Opcode.byte_inj {o p : Opcode} (h : o.byte = p.byte) : o = p := by
  have hsome : some o = some p := by rw [← o.ofByte_byte, h, p.ofByte_byte]
  exact Option.some.inj hsome

/-- The two top bits of a table byte are its operand count (30_encoding.md R51 (b)). -/
theorem Opcode.byte_shiftRight_six (o : Opcode) : (o.byte >>> 6).toNat = o.nopsColumn := by
  rw [BitVec.toNat_ushiftRight, Nat.shiftRight_eq_div_pow]
  exact nopsField_byte o

/-- A byte whose top bits code three operands is no opcode (30_encoding.md R53). -/
theorem Opcode.ofByte_eq_none_of_three_operands {b : Byte} (h : 192 ≤ b.toNat) : Opcode.ofByte b = none := by
  cases ho : Opcode.ofByte b with
  | none => rfl
  | some o =>
    have hn : nopsField b ≤ 2 := by
      rw [← Opcode.byte_of_ofByte ho, nopsField_byte]
      exact o.nopsColumn_le_two
    rw [nopsField] at hn
    omega

/-! ### The statements -/

/-- Settles O2: the opcode byte is looked up to its own mnemonic, and operand fetch takes the operand bytes back. -/
theorem decodeGivesBackEncodedInstruction : Obligations.DecodeGivesBackEncodedInstruction :=
  decode_encode

/-- Settles O3: by the opcode found, then by how many operand bytes it takes. -/
theorem decodedBytesAreTheEncoding : Obligations.DecodedBytesAreTheEncoding :=
  fun _ _ _ => eq_encode_of_decode

/-- Settles O1: each word is evaluated by the decoder. -/
theorem writtenWordsDecode : Obligations.WrittenWordsDecode :=
  ⟨rfl, rfl, rfl, rfl, rfl, rfl, rfl, rfl, rfl, rfl, rfl, rfl⟩

/-- Settles O4: the columns by the lemmas of the table, the number of unknown bytes by counting them. -/
theorem opcodeTableMeetsItsConstraints : Obligations.OpcodeTableMeetsItsConstraints := by
  refine ⟨rfl, Opcode.mem_all, fun _ _ => Opcode.byte_inj, Opcode.byte_shiftRight_six, selfposField_byte,
    Opcode.ofByte_eq_none_of_three_operands (by decide), rfl, rfl, rfl, by decide +kernel, fun n hn h => ?_⟩
  have hlt : n < 2 ^ 8 := List.mem_range.1 hn
  refine Opcode.ofByte_eq_none_of_three_operands ?_
  rwa [BitVec.toNat_ofNat, Nat.mod_eq_of_lt hlt]

end Sys2Proof
end

section
/-! PROOFS. The fetch (40_dispatcher.md R61 to R63): which bytes the dispatcher reaches, what follows from their decoding
or not decoding, and the step that runs them. -/

namespace Sys2Proof.Machine

/-! ### The bytes that are reached -/

/-- The cells from `pc` on, up to three and none above address 255. -/
theorem State.fetchBytes_eq_map (s : State) :
    s.fetchBytes = (List.range (min 3 (256 - s.pc.toNat))).map fun k => Memory.read s.mem (s.pc.toNat + k) := by
  have hpc := s.pc.isLt
  unfold State.fetchBytes State.pcPlus Config.topAddress
  split_ifs with h1 h2
  · rw [show min 3 (256 - s.pc.toNat) = 3 by omega]; rfl
  · rw [show min 3 (256 - s.pc.toNat) = 2 by omega]; rfl
  · rw [show min 3 (256 - s.pc.toNat) = 1 by omega]; rfl

/-- Up to three bytes that stand at `pc` and fit below address 256 are the first bytes fetched. -/
theorem State.fetchBytes_eq_append {s : State} {bs : List Byte} (hlen : bs.length ≤ 3)
    (hfit : s.pc.toNat + bs.length ≤ 256)
    (hread : ∀ (k : Nat) (h : k < bs.length), Memory.read s.mem (s.pc.toNat + k) = bs[k]) :
    ∃ rest, s.fetchBytes = bs ++ rest := by
  have hbs : bs = s.fetchBytes.take bs.length := by
    rw [State.fetchBytes_eq_map, ← List.map_take, List.take_range]
    refine List.ext_getElem ?_ fun k hk _ => ?_
    · rw [List.length_map, List.length_range]; omega
    · rw [List.getElem_map, List.getElem_range, hread k hk]
  exact ⟨s.fetchBytes.drop bs.length, ((congrArg (· ++ _) hbs).trans (List.take_append_drop ..)).symm⟩

/-! ### Bytes that decode -/

theorem length_encode (i : Instr) : (encode i).length = i.opcode.nopsColumn + 1 := by
  rw [encode, List.length_cons, i.length_operandBytes, i.opcode.need_eq_nopsColumn]

/-- An instruction that was fetched fits below address 256. -/
theorem State.pc_add_nopsColumn_le {s : State} {i : Instr} {rest : List Byte}
    (h : decode s.fetchBytes = .ok (i, rest)) : s.pc.toNat + i.opcode.nopsColumn ≤ 255 := by
  have hpc := s.pc.isLt
  have hlen := congrArg List.length (eq_encode_of_decode h)
  rw [State.fetchBytes_eq_map, List.length_map, List.length_range, List.length_append, length_encode] at hlen
  omega

/-- A running core with the bytes of `i` at `pc` runs `i`. -/
theorem step_of_encoding {s : State} {i : Instr} (hr : s.status = .running)
    (hfit : s.pc.toNat + (encode i).length ≤ 256)
    (hread : ∀ (k : Nat) (h : k < (encode i).length), Memory.read s.mem (s.pc.toNat + k) = (encode i)[k]) :
    step s = exec i s := by
  have hlen : (encode i).length ≤ 3 := by
    have := i.opcode.nopsColumn_le_two
    rw [length_encode]; omega
  obtain ⟨rest, hf⟩ := State.fetchBytes_eq_append hlen hfit hread
  exact step_of_decode hr (hf ▸ decode_encode i rest)

/-! ### Bytes that do not decode -/

/-- A byte at `pc` that is no opcode is a fault with that byte (30_encoding.md R53, 60_exceptions.md R112). -/
theorem step_of_unknownOpcode {s : State} (hr : s.status = .running) (ho : Opcode.ofByte (s.readByte s.pc) = none) :
    step s = .next (s.raise ⟨.unknownOpcode, infoOfByte (s.readByte s.pc)⟩) := by
  obtain ⟨rest, hf, -⟩ := s.fetchBytes_eq
  have hd : decode s.fetchBytes = .error (.unknownOpcode (s.readByte s.pc)) := by rw [hf, decode_cons, ho]
  exact step_of_decode_error hr hd

/-- Operand fetch that fails found too few bytes. -/
theorem length_lt_need_of_decodeOperands_error {o : Opcode} {rest : List Byte} {err : DecodeError}
    (h : decodeOperands o rest = .error err) : rest.length < o.need := by
  rcases decodeOperands_cases o rest with ⟨-, e⟩ | ⟨hn, rfl, -⟩ | ⟨a, rest1, -, rfl, e⟩ | ⟨a, hn, rfl, -⟩ |
    ⟨a, b, rest2, -, rfl, e⟩
  · cases e.symm.trans h
  · exact hn
  · cases e.symm.trans h
  · rw [hn]; exact Nat.one_lt_two
  · cases e.symm.trans h

/-- The two ways a fetch can fail: the byte at `pc` is no opcode, or its operands do not fit below address 256. -/
theorem State.fetch_error_cases {s : State} {err : DecodeError} (h : decode s.fetchBytes = .error err) :
    Opcode.ofByte (s.readByte s.pc) = none ∨
    ∃ o, Opcode.ofByte (s.readByte s.pc) = some o ∧ 255 < s.pc.toNat + o.nopsColumn := by
  obtain ⟨rest, hf, hlen⟩ := s.fetchBytes_eq
  cases ho : Opcode.ofByte (s.readByte s.pc) with
  | none => exact .inl rfl
  | some o =>
    rw [hf, decode_cons, ho] at h
    have hshort := length_lt_need_of_decodeOperands_error h
    have hle := o.need_le_two
    rw [o.need_eq_nopsColumn] at hshort hle
    exact .inr ⟨o, rfl, by omega⟩

/-! ### The ALU outside its set -/

/-- A byte outside the ALU set is `InvalidAluOp` (41_alu.md R75). -/
theorem aluExecute_of_not_isAlu {op : Byte} (h : ∀ o : Opcode, o.byte = op → o.isAlu = false) (a b : Byte) (s : State) :
    aluExecute op a b s = .error ⟨.invalidAluOp, infoOfByte op⟩ := by
  unfold aluExecute
  cases ho : Opcode.ofByte op with
  | none => rfl
  | some o =>
    have halu := h o (Opcode.byte_of_ofByte ho)
    cases o with
    | add | mult | mod | cmp | and | not | or | xor | shl | shr => cases halu
    | _ => rfl

/-! ### The statements -/

/-- Settles O5: the decoded instruction is what `step` runs. -/
theorem stepRunsTheDecodedInstruction : Obligations.StepRunsTheDecodedInstruction :=
  fun _ _ _ hr hd => step_of_decode hr hd

/-- Settles O6: the bytes in memory are the bytes fetched, and they decode to their instruction. -/
theorem stepRunsTheBytesAtPc : Obligations.StepRunsTheBytesAtPc :=
  fun _ _ => step_of_encoding

/-- Settles O7: the fetch fault carries the byte, and a faulted core is not running. -/
theorem unknownOpcodeEndsTheRun : Obligations.UnknownOpcodeEndsTheRun := by
  intro s hr ho
  refine ⟨_, step_of_unknownOpcode hr ho, rfl, ⟨1, Status.exitStatus_faulted _ _, Nat.one_ne_zero⟩, ?_⟩
  exact step_of_not_running (by rw [State.raise_status]; exact Status.noConfusion)

/-- Settles O8: the first operand byte that is missing is always at address 256. -/
theorem operandFetchPastTheEndFaults : Obligations.OperandFetchPastTheEndFaults :=
  fun _ _ => step_of_operands_past_end

/-- Settles O9: `step` looks at `STATUS` first. -/
theorem nothingChangesUnlessRunning : Obligations.NothingChangesUnlessRunning :=
  fun _ => step_of_not_running

/-- Settles O10: every meaning ends in `finish` or in `halt`, and a failed fetch in `raise`. -/
theorem everyStepAnswersANextState : Obligations.EveryStepAnswersANextState :=
  ⟨step_next, exec_next⟩

/-- Settles O11: the three stored bytes are the bytes fetched, and they begin with the encoding of the instruction. -/
theorem storedFetchWordRunsNext : Obligations.StoredFetchWordRunsNext := by
  intro s nbits w i hwf hpc hw
  obtain ⟨rest, hd⟩ : ∃ rest, decode (tableWordBytes nbits w) = .ok (i, rest) := by
    unfold decodeTableWord at hw
    split at hw
    · next rest hd => cases hw; exact ⟨rest, hd⟩
    · cases hw
  have hfit : s.pc.toNat + (tableWordBytes nbits w).length ≤ 256 := Nat.add_le_add_right hpc 3
  obtain ⟨more, hf⟩ := State.fetchBytes_eq_append (s := s.withFetchWord nbits w) (bs := tableWordBytes nbits w)
    (Nat.le_refl 3) hfit fun k hk =>
      Memory.read_storeBytes_at hwf _ _ k hk (Nat.lt_of_lt_of_le (Nat.add_lt_add_left hk _) hfit)
  have hdf : decode (s.withFetchWord nbits w).fetchBytes = .ok (i, rest ++ more) := by
    rw [hf, eq_encode_of_decode hd, List.append_assoc, decode_encode]
  exact step_of_decode rfl hdf

end Sys2Proof.Machine
end

section
/-! PROOFS. How a step of a running core can end: it goes on, it halts, or it raises a fault whose info fits its cause
(60_exceptions.md R111, R118). The rules about faults and the end of a run follow from that. -/

namespace Sys2Proof.Machine

/-! ### The info of a fault fits its cause -/

theorem toNat_infoOfByte (b : Byte) : (infoOfByte b).toNat = b.toNat := by
  rw [infoOfByte, BitVec.toNat_setWidth, Nat.mod_eq_of_lt (Nat.lt_trans b.isLt (by decide))]

theorem legalFault_regIndex {c : Byte} (h : 7 < c.toNat) : legalFault .regIndex (infoOfByte c) := by
  have hlt := c.isLt
  rw [legalFault, toNat_infoOfByte]
  omega

theorem legalFault_divideByZero (j : Fin 8) : legalFault .divideByZero (infoOfByte (regByte j)) := by
  rw [legalFault, toNat_infoOfByte, toNat_regByte]
  exact Nat.le_of_lt_succ j.isLt

/-- The faults that come before any effect, for an instruction that was fetched. -/
theorem RaisesEarly.legalFault {i : Instr} {s : State} {r : Raised} (h : RaisesEarly i s r)
    (hfit : s.pc.toNat + i.opcode.nopsColumn ≤ 255) : legalFault r.cause r.info := by
  rcases h with ⟨-, c, -, hc, rfl⟩ | ⟨d, j, -, -, rfl⟩ | ⟨ho, hp, rfl⟩ | ⟨ho, hp, rfl⟩
  · exact legalFault_regIndex hc
  · exact legalFault_divideByZero j
  · have hn : i.opcode.nopsColumn = 1 := by rw [ho]; rfl
    rw [show s.pc.toNat + 2 = 256 by omega]
    rfl
  · have hn : i.opcode.nopsColumn = 1 := by rcases ho with ho | ho <;> rw [ho] <;> rfl
    rw [show s.pc.toNat + 2 = 256 by omega]
    rfl

/-! ### The end of a step -/

/-- A fault raised by a step that began in `s`: precise but for the effects kept at the advance of `pc`. -/
def FaultsTo (s t : State) : Prop :=
  ∃ r : Raised, legalFault r.cause r.info ∧ t.status = .faulted r.cause r.info ∧ t.pc = s.pc ∧
    (r.cause ≠ .pcAdvance → t = s.raise r)

theorem FaultsTo.of_raise {s : State} {r : Raised} (h : legalFault r.cause r.info) : FaultsTo s (s.raise r) :=
  ⟨r, h, rfl, rfl, fun _ => rfl⟩

theorem FaultsTo.goneWrong {s t : State} (h : FaultsTo s t) : t.GoneWrong := by
  obtain ⟨r, -, hstatus, -⟩ := h
  exact ⟨_, _, hstatus⟩

/-- An instruction of a running core that was fetched goes on, halts or faults. -/
theorem exec_ends {i : Instr} {s t : State} (hr : s.status = .running)
    (hfit : s.pc.toNat + i.opcode.nopsColumn ≤ 255) (e : exec i s = .next t) :
    t.status = .running ∨ (i = .halt ∧ t = s.halt) ∨ FaultsTo s t := by
  rcases exec_outcome e with h | ⟨r, rfl, he⟩ | ⟨-, hs, -⟩ | ⟨u, -, -, rfl, hpc, hs, -⟩
  · exact .inr (.inl h)
  · exact .inr (.inr (.of_raise (he.legalFault hfit)))
  · exact .inl (hs.trans hr)
  · rcases u.advance_cases (i.opcode.nopsColumn + 1) with ⟨-, ha⟩ | ⟨hgt, -⟩
    · rw [ha]
      exact .inl (hs.trans hr)
    · rw [State.advance_of_eq (by rw [hpc] at hgt ⊢; omega)]
      exact .inr (.inr ⟨⟨.pcAdvance, 256⟩, rfl, rfl, hpc, fun h => absurd rfl h⟩)

/-- A step of a running core goes on, halts or faults. -/
theorem step_ends {s t : State} (hr : s.status = .running) (e : step s = .next t) :
    t.status = .running ∨ (∃ rest, decode s.fetchBytes = .ok (.halt, rest) ∧ t = s.halt) ∨ FaultsTo s t := by
  rcases step_cases e with ⟨hne, -⟩ | ⟨-, i, rest, hd, he⟩ | ⟨-, err, hd, -⟩
  · exact absurd hr hne
  · rcases exec_ends hr (State.pc_add_nopsColumn_le hd) he with h | ⟨rfl, h⟩ | h
    · exact .inl h
    · exact .inr (.inl ⟨rest, hd, h⟩)
    · exact .inr (.inr h)
  · rcases State.fetch_error_cases hd with ho | ⟨o, ho, hpast⟩
    · cases (step_of_unknownOpcode hr ho).symm.trans e
      exact .inr (.inr (.of_raise ⟨_, ho, rfl⟩))
    · cases (step_of_operands_past_end hr ho hpast).symm.trans e
      exact .inr (.inr (.of_raise rfl))

/-- What a fault of a running core's step says about the step. -/
theorem step_faulted {s t : State} {c : FaultCause} {info : Info} (hr : s.status = .running) (e : step s = .next t)
    (ht : t.status = .faulted c info) :
    t.pc = s.pc ∧ legalFault c info ∧ (c ≠ .pcAdvance → t = s.raise ⟨c, info⟩) := by
  rcases step_ends hr e with h | ⟨rest, -, rfl⟩ | ⟨⟨c', info'⟩, hlegal, hstatus, hpc, hprecise⟩
  · cases h.symm.trans ht
  · cases ht
  · cases hstatus.symm.trans ht
    exact ⟨hpc, hlegal, hprecise⟩

/-! ### The statements -/

/-- Settles O19: the ALU by the opcode table; a fault of a step is a legal one, and `InvalidAluOp` is none. -/
theorem invalidAluOpIsNeverRaised : Obligations.InvalidAluOpIsNeverRaised := by
  refine ⟨fun op a b s h => aluExecute_of_not_isAlu h a b s, fun s t info hr e ht => ?_⟩
  obtain ⟨-, hlegal, -⟩ := step_faulted hr e ht
  exact hlegal

/-- Settles O43: by `step_ends`; a JMP through a register that holds `pc` gives the state back. -/
theorem runEndsByHaltOrFaultOnly : Obligations.RunEndsByHaltOrFaultOnly := by
  refine ⟨fun s t hr e => ?_, fun s rest hr hd => step_of_decode hr hd, fun s i rest hr hd hx => ?_⟩
  · rcases step_ends hr e with h | ⟨rest, hd, rfl⟩ | h
    · exact .inl h
    · exact .inr (.inl ⟨rest, hd, rfl, step_of_not_running Status.noConfusion⟩)
    · obtain ⟨c, info, ht⟩ := h.goneWrong
      exact .inr (.inr ⟨⟨c, info, ht⟩, step_of_not_running (by rw [ht]; exact Status.noConfusion)⟩)
  · calc step s
      _ = exec (.jmp (regByte i)) s := step_of_decode hr hd
      _ = .next { s with pc := s.x i } := (jmp_jumps s).1 i
      _ = .next s := by rw [hx]

/-- Settles O44: by `step_faulted`. -/
theorem faultsArePrecise : Obligations.FaultsArePrecise :=
  fun _ _ _ _ => step_faulted

end Sys2Proof.Machine
end

section
/-! PROOFS. The invariant of the machine (10_state.md R20, 60_exceptions.md R111): each part is kept by a step for its own
reason, every host action keeps it, and it holds of every reachable state. -/

namespace Sys2Proof.Machine

/-! ### A step keeps each part -/

theorem legalFlags_compareFlags (x y : Word) : legalFlags (compareFlags x y) := by
  rcases compareFlags_cases x y with ⟨-, h⟩ | ⟨-, h⟩ | ⟨-, h⟩ <;> rw [h]
  · exact .inr (.inl rfl)
  · exact .inr (.inr (.inl rfl))
  · exact .inr (.inr (.inr rfl))

/-- An instruction keeps `FL`, or it is CMP and leaves the outcome of a compare. -/
theorem exec_fl {i : Instr} {s t : State} (e : exec i s = .next t) :
    t.fl = s.fl ∨ ∃ x y, t.fl = compareFlags x y := by
  rcases exec_outcome e with ⟨-, rfl⟩ | ⟨r, rfl, -⟩ | ⟨-, -, -, hfl, -⟩ | ⟨u, -, -, rfl, -, -, -, hfl, -⟩
  · exact .inl rfl
  · exact .inl rfl
  · exact .inl hfl
  · rw [State.advance_fl]
    exact hfl.imp_right fun ⟨x, y, _, h⟩ => ⟨x, y, h⟩

theorem step_legalFlags {s t : State} (h : legalFlags s.fl) (e : step s = .next t) : legalFlags t.fl := by
  rcases step_cases e with ⟨-, rfl⟩ | ⟨-, i, rest, -, he⟩ | ⟨-, err, -, rfl⟩
  · exact h
  · rcases exec_fl he with hfl | ⟨x, y, hfl⟩ <;> rw [hfl]
    · exact h
    · exact legalFlags_compareFlags x y
  · exact h

theorem step_mem_wf {s t : State} (h : Memory.wf s.mem = true) (e : step s = .next t) : Memory.wf t.mem = true := by
  rcases step_mem e with hmem | ⟨-, -, -, a, v, -, -, hmem⟩ <;> rw [hmem]
  · exact h
  · exact State.writeByte_wf h a v

theorem legalStatus_of_running {s : State} (h : s.status = .running) : legalStatus s := by
  rw [legalStatus, h]
  trivial

/-- While not running the status stays; while running the step ends in a legal one. -/
theorem step_legalStatus {s t : State} (h : legalStatus s) (e : step s = .next t) : legalStatus t := by
  by_cases hr : s.status = .running
  · rcases step_ends hr e with ht | ⟨rest, -, rfl⟩ | ⟨r, hlegal, ht, -⟩
    · exact legalStatus_of_running ht
    · trivial
    · rw [legalStatus, ht]
      exact hlegal
  · cases (step_of_not_running hr).symm.trans e
    exact h

theorem State.Inv.step {s t : State} (h : s.Inv) (e : step s = .next t) : t.Inv :=
  ⟨step_mem_wf h.mem_wf e, step_legalFlags h.flags e, step_legalStatus h.status e⟩

/-! ### The host keeps it -/

theorem State.reset_inv : State.reset.Inv :=
  ⟨rfl, .inl rfl, rfl, rfl, rfl⟩

theorem resetWith_inv (mem0 : Vector Byte 256) : (resetWith mem0).Inv :=
  ⟨Memory.wf_ofImage mem0, .inl rfl, rfl, rfl, rfl⟩

theorem State.Inv.writeByte {s : State} (h : s.Inv) (a : Word) (v : Byte) : (s.writeByte a v).Inv :=
  ⟨State.writeByte_wf h.mem_wf a v, h.flags, h.status⟩

theorem State.Inv.run {s : State} (h : s.Inv) : s.run.Inv := by
  by_cases hi : s.status = .idle
  · rw [State.run_of_idle hi]
    exact ⟨h.mem_wf, h.flags, trivial⟩
  · rwa [State.run_of_not_idle hi]

theorem State.host_write_of_idle {s : State} (h : s.status = .idle) (a : Word) (v : Byte) :
    s.host (.write a v) = some (s.writeByte a v) :=
  if_pos h

theorem State.host_write_of_not_idle {s : State} (h : s.status ≠ .idle) (a : Word) (v : Byte) :
    s.host (.write a v) = none :=
  if_neg h

theorem State.Inv.host {s t : State} {act : HostAction} (h : s.Inv) (e : s.host act = some t) : t.Inv := by
  cases act with
  | reset mem0 => cases e; exact resetWith_inv mem0
  | write a v =>
    by_cases hi : s.status = .idle
    · cases (State.host_write_of_idle hi a v).symm.trans e
      exact h.writeByte a v
    · cases (State.host_write_of_not_idle hi a v).symm.trans e
  | run => cases e; exact h.run

/-! ### Every reachable state meets it -/

theorem Reachable.inv {s : State} (h : Reachable s) : s.Inv := by
  induction h with
  | reset mem0 => exact resetWith_inv mem0
  | host act _ e ih => exact ih.host e
  | step _ e ih => exact ih.step e

/-- A state that meets the invariant holds no `InvalidAluOp` (60_exceptions.md R113). -/
theorem State.Inv.status_ne_invalidAluOp {s : State} (h : s.Inv) (info : Info) :
    s.status ≠ .faulted .invalidAluOp info := by
  intro hs
  have hlegal := h.status
  rw [legalStatus, hs] at hlegal
  exact hlegal

/-! ### The statements -/

/-- Settles O54: memory by `step_mem_wf`, `FL` by `step_legalFlags`, `STATUS` by `step_legalStatus`. -/
theorem everyStepKeepsTheInvariant : Obligations.EveryStepKeepsTheInvariant :=
  fun _ _ => State.Inv.step

/-- Settles O55: the reset values are legal, and an image is in the canonical form. -/
theorem resetMeetsTheInvariant : Obligations.ResetMeetsTheInvariant :=
  ⟨State.reset_inv, resetWith_inv⟩

/-- Settles O56: by the action, and `write` and `run` by whether the core is Idle. -/
theorem hostActionsKeepTheInvariant : Obligations.HostActionsKeepTheInvariant :=
  fun _ _ _ => State.Inv.host

/-- Settles O57: by induction on how the state is reached. -/
theorem reachableStatesAreLegal : Obligations.ReachableStatesAreLegal :=
  fun _ h => ⟨h.inv, h.inv.status_ne_invalidAluOp⟩

end Sys2Proof.Machine
end

section
/-! PROOFS. Memory in its canonical form is determined by what it reads (10_state.md R24): two canonical memories that read
alike list the same addresses with the same bytes. -/

namespace Sys2Proof.Machine

theorem Memory.wfFrom_cons {lo k : Nat} {v : Byte} {m : Memory} :
    Memory.wfFrom lo ((k, v) :: m) = true ↔
      lo ≤ k ∧ k < 256 ∧ v ≠ Config.unlistedByte ∧ Memory.wfFrom (k + 1) m = true := by
  simp only [Memory.wfFrom, Bool.and_eq_true, decide_eq_true_eq, and_assoc]

theorem Memory.read_cons_self (k : Nat) (v : Byte) (m : Memory) : Memory.read ((k, v) :: m) k = v :=
  if_pos rfl

/-- A canonical memory lists no address before its first one. -/
theorem Memory.wfFrom_head {lo k : Nat} {v : Byte} {m : Memory} (h : Memory.wfFrom lo ((k, v) :: m) = true) :
    Memory.wfFrom k ((k, v) :: m) = true := by
  obtain ⟨-, hk, hv, hm⟩ := Memory.wfFrom_cons.1 h
  exact Memory.wfFrom_cons.2 ⟨Nat.le_refl k, hk, hv, hm⟩

/-- The first listed address reads otherwise in a memory that lists only higher ones. -/
theorem Memory.read_ne_of_lt {lo lo' k : Nat} {v : Byte} {m n : Memory} (hm : Memory.wfFrom lo ((k, v) :: m) = true)
    (hn : Memory.wfFrom lo' n = true) (hk : k < lo') : Memory.read ((k, v) :: m) k ≠ Memory.read n k := by
  obtain ⟨-, -, hv, -⟩ := Memory.wfFrom_cons.1 hm
  rwa [Memory.read_cons_self, Memory.read_below hn hk]

/-- Above the highest address nothing is listed. -/
theorem Memory.read_of_le {lo : Nat} {m : Memory} (h : Memory.wfFrom lo m = true) {a : Nat} (ha : 256 ≤ a) :
    Memory.read m a = Config.unlistedByte := by
  induction m generalizing lo with
  | nil => rfl
  | cons kv rest ih =>
    obtain ⟨k, v⟩ := kv
    obtain ⟨-, hk, -, hrest⟩ := Memory.wfFrom_cons.1 h
    rw [Memory.read_cons, if_neg (by omega)]
    exact ih hrest

/-- Neither list can have a first address that the other lacks; so they begin alike, and the rests read alike. -/
theorem Memory.eq_of_read_eq {lo lo' : Nat} {m n : Memory} (hm : Memory.wfFrom lo m = true)
    (hn : Memory.wfFrom lo' n = true) (h : ∀ a, Memory.read m a = Memory.read n a) : m = n := by
  induction m generalizing lo lo' n with
  | nil =>
    cases n with
    | nil => rfl
    | cons kw n => exact absurd (h kw.1).symm (Memory.read_ne_of_lt hn rfl (Nat.lt_succ_self _))
  | cons kv m ih =>
    cases n with
    | nil => exact absurd (h kv.1) (Memory.read_ne_of_lt hm rfl (Nat.lt_succ_self _))
    | cons kw n =>
      obtain ⟨k, v⟩ := kv
      obtain ⟨k', w⟩ := kw
      rcases Nat.lt_trichotomy k k' with hlt | rfl | hlt
      · exact absurd (h k) (Memory.read_ne_of_lt hm (Memory.wfFrom_head hn) hlt)
      · obtain rfl : v = w := by simpa only [Memory.read_cons_self] using h k
        obtain ⟨-, -, -, hm'⟩ := Memory.wfFrom_cons.1 hm
        obtain ⟨-, -, -, hn'⟩ := Memory.wfFrom_cons.1 hn
        have hrest : ∀ a, Memory.read m a = Memory.read n a := by
          intro a
          by_cases ha : k = a
          · rw [← ha, Memory.read_below hm' (Nat.lt_succ_self k), Memory.read_below hn' (Nat.lt_succ_self k)]
          · simpa only [Memory.read_cons, if_neg ha] using h a
        rw [ih hm' hn' hrest]
      · exact absurd (h k').symm (Memory.read_ne_of_lt hn (Memory.wfFrom_head hm) hlt)

/-- Settles O53: by `Memory.eq_of_read_eq`; from address 256 on both memories read as unlisted. -/
theorem canonicalMemoriesThatReadAlikeAreEqual : Obligations.CanonicalMemoriesThatReadAlikeAreEqual := by
  refine fun m n hm hn h => Memory.eq_of_read_eq hm hn fun a => ?_
  by_cases ha : a < 256
  · exact h a ha
  · rw [Memory.read_of_le hm (Nat.le_of_not_lt ha), Memory.read_of_le hn (Nat.le_of_not_lt ha)]

end Sys2Proof.Machine
end

section
/-! PROOFS. What the host does and sees: reset values (10_state.md R27), memory writes and program loads while Idle
(00_scope.md R6, 70_reset_and_hazards.md R132), and the status ports (10_state.md R21, 60_exceptions.md R111). -/

namespace Sys2Proof.Machine

/-! ### Writes and loads -/

theorem State.writeByte_readByte_same {s : State} (h : Memory.wf s.mem = true) (a : Word) (v : Byte) :
    (s.writeByte a v).readByte a = v :=
  Memory.read_write_same h _ v

theorem State.sameMemoryExcept_writeByte (s : State) (a : Word) (v : Byte) : s.SameMemoryExcept (s.writeByte a v) a :=
  fun _ hc => Memory.read_write_other _ _ v _ fun h => hc (BitVec.eq_of_toNat_eq h)

theorem State.load_of_idle {s : State} {p : List Byte} (hs : s.status = .idle) (hp : p.length ≤ 256) :
    s.load p = some { s with mem := Memory.storeBytes s.mem 0 p } :=
  if_pos ⟨hs, hp⟩

theorem State.load_of_too_long {s : State} {p : List Byte} (hp : 256 < p.length) : s.load p = none :=
  if_neg fun h => Nat.not_le_of_lt hp h.2

/-- Byte `k` of a program stored from address 0 on stands at address `k`. -/
theorem Memory.read_storeBytes_zero {m : Memory} (hm : Memory.wf m = true) {p : List Byte} (hp : p.length ≤ 256)
    {k : Nat} (hk : k < p.length) : Memory.read (Memory.storeBytes m 0 p) k = p[k] := by
  have h := Memory.read_storeBytes_at hm 0 p k hk (by rw [Nat.zero_add]; exact Nat.lt_of_lt_of_le hk hp)
  rwa [Nat.zero_add] at h

/-! ### The status ports -/

/-- The codes of 60_exceptions.md R111 tell the causes apart. -/
theorem FaultCause.code_inj {c d : FaultCause} (h : c.code = d.code) : c = d := by
  revert h
  cases c <;> cases d <;> decide

/-- The ports together determine the status: the state port its constructor, the other two the fault. -/
theorem Status.eq_of_ports {p q : Status} (hstate : p.stateField = q.stateField) (hcause : p.causeField = q.causeField)
    (hinfo : p.infoField = q.infoField) : p = q := by
  cases p with
  | idle => cases q with
    | idle => rfl
    | _ => simp [Status.stateField] at hstate
  | running => cases q with
    | running => rfl
    | _ => simp [Status.stateField] at hstate
  | halted => cases q with
    | halted => rfl
    | _ => simp [Status.stateField] at hstate
  | faulted c info => cases q with
    | faulted d info' => rw [FaultCause.code_inj hcause, show info = info' from hinfo]
    | _ => simp [Status.stateField] at hstate

/-- Outside Faulted the cause and the info read 0 (60_exceptions.md R111). -/
theorem Status.fields_eq_zero_of_not_faulted {p : Status} (h : p.stateField ≠ 3) :
    p.causeField = 0 ∧ p.infoField = 0 := by
  cases p with
  | idle | running | halted => exact ⟨rfl, rfl⟩
  | faulted c info => exact absurd rfl h

/-! ### The statements -/

/-- Settles O48: the registers by `resetWith_x`, the image by `resetWith_readByte`. -/
theorem resetGivesTheResetValues : Obligations.ResetGivesTheResetValues :=
  fun _ mem0 => ⟨resetWith mem0, rfl, resetWith_x mem0, rfl, rfl, rfl, rfl, rfl, rfl, resetWith_readByte mem0⟩

/-- Settles O50: the stored bytes are read back, and above them memory is as before. -/
theorem loadPutsTheProgramAtZero : Obligations.LoadPutsTheProgramAtZero := by
  refine ⟨fun s p hs hwf hp => ?_, fun s p => State.load_of_too_long⟩
  refine ⟨_, State.load_of_idle hs hp, fun k hk => ?_, fun c hc => ?_, rfl⟩
  · rw [State.readByte, BitVec.toNat_ofNat, Nat.mod_eq_of_lt (Nat.lt_of_lt_of_le hk hp)]
    exact Memory.read_storeBytes_zero hwf hp hk
  · exact Memory.read_storeBytes_above _ 0 p (by rwa [Nat.zero_add])

/-- Settles O51: by whether the core is Idle. -/
theorem hostWritesOnlyWhileIdle : Obligations.HostWritesOnlyWhileIdle := by
  refine ⟨fun s a v hs => State.host_write_of_not_idle hs a v, fun s a v hs hwf => ?_⟩
  exact ⟨_, State.host_write_of_idle hs a v, State.writeByte_readByte_same hwf a v,
    s.sameMemoryExcept_writeByte a v, rfl⟩

/-- Settles O52: the values by the definitions of the ports, the last clause by `Status.eq_of_ports`. -/
theorem statusPortsDetermineTheStatus : Obligations.StatusPortsDetermineTheStatus :=
  ⟨⟨rfl, rfl, rfl⟩, fun _ _ => ⟨rfl, rfl, rfl⟩, fun _ => ⟨rfl, rfl, rfl, rfl, rfl, rfl, rfl⟩,
    fun _ => Status.fields_eq_zero_of_not_faulted, ⟨rfl, rfl, rfl⟩, fun _ _ => Status.eq_of_ports⟩

end Sys2Proof.Machine
end

section
/-! PROOFS. The remaining instructions through registers in range: NOT, the shifts, CMP, PUSH, POP, CALL, HALT and PRN
(41_alu.md R82 to R85, 42_stack_control.md R90 to R92, 43_simple.md R100, R102), each first as an equation for `exec`. -/

namespace Sys2Proof.Machine

/-! ### The advance by cases of its end -/

theorem State.advance_pc_of_le {s : State} {k : Nat} (h : s.pc.toNat + k ≤ 255) :
    (s.advance k).pc.toNat = s.pc.toNat + k := by
  rw [State.advance_of_le h]
  exact toNat_narrow_of_lt (Nat.lt_succ_of_le h)

/-- How an advance by two ends: at an address, or one past the last. -/
theorem State.advance_two_ends {s u : State} (hpc : u.pc = s.pc) (hs : u.status = s.status) :
    (s.pc.toNat ≤ 253 → (u.advance 2).pc.toNat = s.pc.toNat + 2 ∧ (u.advance 2).status = s.status) ∧
    (s.pc.toNat = 254 → (u.advance 2).pc = s.pc ∧ (u.advance 2).status = .faulted .pcAdvance 256) := by
  rw [← hpc, ← hs]
  refine ⟨fun h => ?_, fun h => ?_⟩
  · have hfit : u.pc.toNat + 2 ≤ 255 := Nat.add_le_add_right h 2
    exact ⟨State.advance_pc_of_le hfit, State.advance_status_of_le hfit⟩
  · rw [State.advance_of_eq (congrArg (· + 2) h)]
    exact ⟨rfl, rfl⟩

@[simp] theorem State.advance_readByte (s : State) (k : Nat) (c : Word) : (s.advance k).readByte c = s.readByte c := by
  rw [State.readByte, State.advance_mem, State.readByte]

/-! ### Each instruction with registers in range -/

section
variable (s : State) (i j : Fin 8)

/-- A one-register handler that completes is followed by the advance. -/
theorem finish_withReg_regByte {o : Opcode} (ho : o.selfposColumn = false) (k : Fin 8 → State) :
    finish o s (withReg (regByte i) fun i => .ok (k i)) = .next ((k i).advance (o.nopsColumn + 1)) := by
  rw [withReg_regByte, finish_ok_auto ho]

theorem exec_not_regByte (b : Byte) : exec (.not (regByte i) b) s = .next ((s.setX i (~~~ (s.x i))).advance 3) :=
  (exec_not _ b s).trans (finish_withReg_regByte (o := .not) s i rfl _)

theorem exec_push_regByte :
    exec (.push (regByte i)) s = .next ((s.decSp.storeAtSp (s.decSp.x i)).advance 2) :=
  finish_withReg_regByte (o := .push) s i rfl _

theorem exec_pop_regByte :
    exec (.pop (regByte i)) s = .next ((s.setX i (s.readByte s.sp)).incSp.advance 2) :=
  finish_withReg_regByte (o := .pop) s i rfl _

theorem exec_prn_regByte : exec (.prn (regByte i)) s = .next ((s.emit (s.x i)).advance 2) :=
  finish_withReg_regByte (o := .prn) s i rfl _

theorem exec_cmp_regByte :
    exec (.cmp (regByte i) (regByte j)) s = .next ((s.setFl (compareFlags (s.x i) (s.x j))).advance 3) := by
  rw [exec_cmp, aluCmp, withRegs_regByte, finish_ok_auto rfl]
  rfl

/-- CALL whose return address would be 256 faults with nothing pushed (the spec's decision D18). -/
theorem exec_call_of_eq (h : s.pc.toNat = 254) :
    exec (.call (regByte i)) s = .next (s.raise ⟨.returnAddress, 256⟩) := by
  have hpc : s.pcPlus 2 = 256 := by rw [State.pcPlus, h]
  rw [exec_call, handleCall, withReg_regByte, hpc, if_neg (by decide), finish_error]
  rfl

/-! ### The stack -/

/-- A register read after the decrement of `SP`: `SP` itself is read decremented (42_stack_control.md R90, R92). -/
theorem State.decSp_x : s.decSp.x i = if i = 7 then s.x 7 - 1 else s.x i := by
  split
  · next h => rw [h]; exact s.decSp_sp
  · next h => exact s.decSp_x_other i h

/-- A POP leaves the loaded byte in its register; `SP` itself it leaves incremented (42_stack_control.md R91). -/
theorem State.setX_incSp_x (v : Word) : (s.setX i v).incSp.x i = if i = 7 then v + 1 else v := by
  split
  · next h =>
    subst h
    rw [← State.sp_eq, State.incSp_sp, State.sp_eq, State.setX_x_same]
  · next h => rw [State.incSp_x_other _ _ h, State.setX_x_same]

/-- A store at `SP` writes one byte. -/
theorem State.sameMemoryExcept_storeAtSp (v : Byte) : s.SameMemoryExcept (s.storeAtSp v) s.sp :=
  s.sameMemoryExcept_writeByte s.sp v

end

/-! ### The outcome of a compare -/

theorem compareFlags_of_eq {va vb : Word} (h : va = vb) : compareFlags va vb = flagE :=
  if_pos h

theorem compareFlags_of_gt {va vb : Word} (h : vb.toNat < va.toNat) : compareFlags va vb = flagG := by
  rcases compareFlags_cases va vb with ⟨rfl, -⟩ | ⟨-, e⟩ | ⟨hlt, -⟩
  · exact absurd h (Nat.lt_irrefl _)
  · exact e
  · exact absurd h (Nat.lt_asymm hlt)

theorem compareFlags_of_lt {va vb : Word} (h : va.toNat < vb.toNat) : compareFlags va vb = flagL := by
  rcases compareFlags_cases va vb with ⟨rfl, -⟩ | ⟨hgt, -⟩ | ⟨-, e⟩
  · exact absurd h (Nat.lt_irrefl _)
  · exact absurd h (Nat.lt_asymm hgt)
  · exact e

/-! ### What a push does -/

/-- What a push of `v` does to the registers and to memory (42_stack_control.md R97). -/
theorem State.push_effects (s : State) (v : Byte) :
    (s.decSp.storeAtSp v).x 7 = s.x 7 - 1 ∧ s.SameRegsExcept (s.decSp.storeAtSp v) [7] ∧
      s.SameMemoryExcept (s.decSp.storeAtSp v) (s.x 7 - 1) := by
  refine ⟨s.decSp_sp, fun k hk => s.decSp_x_other k fun h => hk (by simp [h]), ?_⟩
  have h := s.decSp.sameMemoryExcept_storeAtSp v
  rwa [State.decSp_sp] at h

theorem State.push_readByte {s : State} (hwf : Memory.wf s.mem = true) (v : Byte) :
    (s.decSp.storeAtSp v).readByte (s.x 7 - 1) = v := by
  have h := State.storeAtSp_readByte_sp (s := s.decSp) hwf v
  rwa [State.decSp_sp] at h

/-! ### The statements -/

/-- Settles O16: the complement of a byte is 255 minus it; the second operand byte does not occur in the handler. -/
theorem notComplementsAndIgnoresItsSecondByte : Obligations.NotComplementsAndIgnoresItsSecondByte := by
  refine ⟨formatRR_of_nopsColumn (o := .not) rfl, fun s i b hpc => ?_,
    fun b => checksRegister_of_withReg fun a s => exec_not a b s⟩
  have hv : 255 - (s.x i).toNat = (~~~ (s.x i)).toNat := (BitVec.toNat_not (x := s.x i)).symm
  rw [hv]
  exact writesRegisterOnly_of_setX hpc (exec_not_regByte s i b)

/-- Settles O17: a quotient stays below 256. -/
theorem shiftsUseTheWholeAmount : Obligations.ShiftsUseTheWholeAmount :=
  ⟨computesFromBoth_of_writeFromBoth (o := .shl) rfl rfl exec_shl fun _ _ _ _ => rfl,
    computesFromBoth_of_writeFromBoth_of_lt (o := .shr) rfl rfl exec_shr
      fun x _ hx _ => Nat.lt_of_le_of_lt (Nat.div_le_self x _) hx⟩

/-- Settles O18: the three orders by `compareFlags`; the advance fits up to 252. -/
theorem compareSetsExactlyOneFlag : Obligations.CompareSetsExactlyOneFlag := by
  refine ⟨formatRR_of_nopsColumn (o := .cmp) rfl, fun s i j hpc => ?_, checksBothRegisters_of_withRegs exec_cmp⟩
  have hfit : (s.setFl (compareFlags (s.x i) (s.x j))).pc.toNat + 3 ≤ 255 := Nat.add_le_add_right hpc 3
  refine ⟨_, exec_cmp_regByte s i j, fun h => ?_, fun h => ?_, fun h => ?_, State.advance_pc_of_le hfit,
    fun k => State.advance_x _ _ k, fun c => State.advance_readByte _ _ c, State.advance_out _ _,
    State.advance_status_of_le hfit⟩
  all_goals rw [State.advance_fl, State.setFl_fl]
  · exact compareFlags_of_eq (BitVec.eq_of_toNat_eq h)
  · exact compareFlags_of_gt h
  · exact compareFlags_of_lt h

/-- Settles O21: the push, then the advance by two. -/
theorem pushDecrementsThenStores : Obligations.PushDecrementsThenStores := by
  refine ⟨formatR_of_nopsColumn (o := .push) rfl, fun s i hwf _ => ?_,
    checksRegister_of_withReg fun a s => exec_push a s⟩
  obtain ⟨hsp, hregs, hmem⟩ := s.push_effects (s.decSp.x i)
  obtain ⟨hfit, hend⟩ := State.advance_two_ends (s := s) (u := s.decSp.storeAtSp (s.decSp.x i)) rfl rfl
  refine ⟨_, exec_push_regByte s i, ?_, ?_, fun k hk => ?_, fun c hc => ?_, State.advance_fl _ _,
    State.advance_out _ _, hfit, hend⟩
  · rw [State.advance_x, hsp]
  · rw [State.advance_readByte, State.push_readByte hwf, State.decSp_x]
  · rw [State.advance_x, hregs k hk]
  · rw [State.advance_readByte, hmem c hc]

/-- Settles O22: the load, the increment, then the advance by two. -/
theorem popLoadsThenIncrements : Obligations.PopLoadsThenIncrements := by
  refine ⟨formatR_of_nopsColumn (o := .pop) rfl, fun s i _ => ?_, checksRegister_of_withReg fun a s => exec_pop a s⟩
  obtain ⟨hfit, hend⟩ := State.advance_two_ends (s := s) (u := (s.setX i (s.readByte s.sp)).incSp) rfl rfl
  refine ⟨_, exec_pop_regByte s i, ?_, fun hi => ?_, fun k hk => ?_, fun c => State.advance_readByte _ _ c,
    State.advance_fl _ _, State.advance_out _ _, hfit, hend⟩
  · rw [State.advance_x, State.setX_incSp_x]
    rfl
  · rw [State.advance_x, ← State.sp_eq, State.incSp_sp, State.sp_eq, State.setX_x_other _ _ _ _ hi.symm]
  · rw [State.advance_x, State.incSp_x_other _ _ fun h => hk (by simp [h]),
      State.setX_x_other _ _ _ _ fun h => hk (by simp [h])]

/-- Settles O23: up to 253 the return address is pushed; at 254 it is no address. -/
theorem callPushesTheReturnAddress : Obligations.CallPushesTheReturnAddress := by
  refine ⟨formatR_of_nopsColumn (o := .call) rfl, fun s i hwf hpc => ?_, fun s i h => exec_call_of_eq s i h,
    checksRegister_of_withReg fun a s => exec_call a s⟩
  obtain ⟨hsp, hregs, hmem⟩ := s.push_effects (narrow (s.pc.toNat + 2))
  refine ⟨_, exec_call_of_le hpc i, hsp, ?_, s.decSp_x i, hregs, hmem, rfl, rfl, rfl⟩
  calc ((s.decSp.storeAtSp (narrow (s.pc.toNat + 2))).readByte (s.x 7 - 1)).toNat
    _ = (narrow (s.pc.toNat + 2)).toNat := congrArg _ (State.push_readByte hwf _)
    _ = s.pc.toNat + 2 := toNat_narrow_of_lt (by omega)

/-- Settles O30: HALT changes `STATUS` alone, and a halted core is not running. -/
theorem haltEndsTheRunInPlace : Obligations.HaltEndsTheRunInPlace := by
  refine ⟨formatZ_of_nopsColumn (o := .halt) rfl, fun s => ⟨s.halt, exec_halt s, rfl, rfl, ?_⟩⟩
  exact step_of_not_running Status.noConfusion

/-- Settles O32: the output, then the advance by two. -/
theorem prnAppendsTheValue : Obligations.PrnAppendsTheValue := by
  refine ⟨formatR_of_nopsColumn (o := .prn) rfl, fun s i _ => ?_, checksRegister_of_withReg fun a s => exec_prn a s⟩
  obtain ⟨hfit, hend⟩ := State.advance_two_ends (s := s) (u := s.emit (s.x i)) rfl rfl
  exact ⟨_, exec_prn_regByte s i, State.advance_out _ _, fun k => State.advance_x _ _ k,
    fun c => State.advance_readByte _ _ c, State.advance_fl _ _, hfit, hend⟩

end Sys2Proof.Machine
end

section
/-! PROOFS. Two instructions in a row: CMP and a conditional jump (95_test_vectors.md P4), PUSH and POP
(42_stack_control.md R98). -/

namespace Sys2Proof.Machine

/-- A running core with the two bytes of `i` at `pc` runs `i`. -/
theorem step_of_two_bytes {s : State} {i : Instr} {op a : Byte} (hr : s.status = .running) (hpc : s.pc.toNat ≤ 254)
    (hi : encode i = [op, a]) (hop : s.readByte s.pc = op) (ha : s.readByte (s.pc + 1) = a) : step s = exec i s := by
  have hnext : (s.pc + 1).toNat = s.pc.toNat + 1 := by
    rw [BitVec.toNat_add]
    exact Nat.mod_eq_of_lt (Nat.lt_of_le_of_lt (Nat.add_le_add_right hpc 1) (by decide))
  refine step_of_encoding hr (by rw [hi]; exact Nat.add_le_add_right hpc 2) fun k hk => ?_
  simp only [hi, List.length_cons, List.length_nil] at hk ⊢
  match k, hk with
  | 0, _ => exact hop
  | 1, _ => rw [← hnext]; exact ha

/-- Settles O28: the CMP leaves the equal-bit-only pattern exactly for equal values, and the jump reads it. -/
theorem compareSteersTheConditionalJumps : Obligations.CompareSteersTheConditionalJumps := by
  intro s t i j k hpc e
  obtain ⟨-, hcmp, -⟩ := compareSetsExactlyOneFlag
  obtain ⟨t', ht', heq, hgt, hlt, htpc, hx, -⟩ := hcmp s i j (Nat.le_trans hpc (by decide))
  cases ht'.symm.trans e
  have key : ∀ {ins ins' : Byte → Instr}, Jumps ins t → FallsThrough ins' t →
      exec (ins (regByte k)) t = .next { t with pc := s.x k } ∧
        ∃ u, exec (ins' (regByte k)) t = .next u ∧ u.pc.toNat = s.pc.toNat + 5 := by
    intro ins ins' hj hf
    obtain ⟨u, hu, hupc, -⟩ := (hf (regByte k)).1 (by omega)
    exact ⟨hx k ▸ hj.1 k, u, hu, by omega⟩
  refine ⟨fun h => ?_, fun h => ?_⟩
  · have hfl : t.fl = 0x01 := heq (congrArg BitVec.toNat h)
    exact key (jeq_jumps hfl) (jne_fallsThrough hfl)
  · have hfl : t.fl ≠ 0x01 := by
      rcases Nat.lt_or_gt_of_ne fun h' => h (BitVec.eq_of_toNat_eq h') with h | h
      · rw [hlt h]; decide
      · rw [hgt h]; decide
    exact key (jne_jumps hfl) (jeq_fallsThrough hfl)

/-- Settles O29: the push leaves the bytes of the POP in place and `x[i]` at `SP`; the POP loads it. -/
theorem pushThenPopMovesARegister : Obligations.PushThenPopMovesARegister := by
  intro s i j hr hwf hi hj hpc hop hopi hpop hpopj hapart
  obtain ⟨-, hpush, -⟩ := pushDecrementsThenStores
  obtain ⟨-, hpopR, -⟩ := popLoadsThenIncrements
  obtain ⟨t, ht, hsp, hstored, -, hmem, -, -, htadv, -⟩ := hpush s i hwf (by omega)
  obtain ⟨htpc, htr⟩ := htadv (by omega)
  obtain ⟨u, hu, hux, husp, -, -, -, -, huadv, -⟩ := hpopR t j (by omega)
  obtain ⟨hupc, -⟩ := huadv (by omega)
  have haddr : ∀ k : Nat, k < 4 → (s.pc + BitVec.ofNat 8 k).toNat = s.pc.toNat + k := by
    intro k hk
    rw [BitVec.toNat_add, BitVec.toNat_ofNat]
    omega
  have hkept : ∀ k : Nat, k < 4 → t.readByte (s.pc + BitVec.ofNat 8 k) = s.readByte (s.pc + BitVec.ofNat 8 k) :=
    fun k hk => hmem _ fun h => hapart k hk ((congrArg BitVec.toNat h).symm.trans (haddr k hk))
  have htpc' : t.pc = s.pc + 2 := BitVec.eq_of_toNat_eq (htpc.trans (haddr 2 (by decide)).symm)
  have htpc1 : t.pc + 1 = s.pc + 3 := by rw [htpc', BitVec.add_assoc]; rfl
  have hstep : step s = .next t := (step_of_two_bytes (i := .push (regByte i)) hr (by omega) rfl hop hopi).trans ht
  have hstep' : step t = .next u := by
    refine (step_of_two_bytes (i := .pop (regByte j)) (htr.trans hr) (by omega) rfl ?_ ?_).trans hu
    · rw [htpc']; exact (hkept 2 (by decide)).trans hpop
    · rw [htpc1]; exact (hkept 3 (by decide)).trans hpopj
  refine ⟨t, u, hstep, hstep', ?_, ?_, by omega⟩
  · rw [husp hj, hsp, BitVec.sub_add_cancel]
  · rw [hux, if_neg hj, hsp, hstored, if_neg hi]

end Sys2Proof.Machine
end

section
/-! PROOFS. Frames: what each instruction leaves unchanged (10_state.md R12, R19, R24, R25). The registers that an
instruction may write are listed once; everything else follows from who writes `FL`, `OUT` and memory. -/

namespace Sys2Proof.Machine

/-! ### Registers -/

/-- The indices an instruction may write: its destination, and register 7 where it moves `SP`. -/
def writtenRegs : Instr → List Nat
  | .nop | .halt | .prn _ | .jmp _ | .jeq _ | .jne _ | .cmp _ _ => []
  | .ret | .push _ | .call _ => [7]
  | .pop a => [7, a.toNat]
  | .ldi a _ | .add a _ | .mult a _ | .mod a _ | .and a _ | .not a _ | .or a _ | .xor a _ | .shl a _ | .shr a _ =>
    [a.toNat]

section
variable {s t : State}

theorem State.sameRegsExcept_setX_advance (s : State) (d : Fin 8) (v : Word) (k : Nat) :
    s.SameRegsExcept ((s.setX d v).advance k) [(regByte d).toNat] := by
  intro r hr
  rw [State.advance_x, State.setX_x_other _ _ _ _ fun h => hr (by simp [h])]

theorem exec_binary_sameRegs {i : Instr} {a b : Byte}
    (hi : i = .add a b ∨ i = .mult a b ∨ i = .and a b ∨ i = .or a b ∨ i = .xor a b ∨ i = .shl a b ∨ i = .shr a b)
    (e : exec i s = .next t) : s.SameRegsExcept t [a.toNat] := by
  rcases exec_binary_next hi e with ⟨d, v, rfl, rfl⟩ | ⟨c, -, -, rfl⟩
  · exact s.sameRegsExcept_setX_advance d v 3
  · exact fun _ _ => rfl

/-- No instruction changes a register that it does not list; a fault changes none. -/
theorem exec_sameRegs {i : Instr} (e : exec i s = .next t) : s.SameRegsExcept t (writtenRegs i) := by
  cases i with
  | nop => rw [exec_nop_next e]; exact fun k _ => State.advance_x _ _ k
  | halt => rw [exec_halt_next e]; exact fun _ _ => rfl
  | ret => rw [exec_ret_next e]; exact fun k hk => State.incSp_x_other _ k fun h => hk (by simp [writtenRegs, h])
  | push a =>
    rcases exec_push_next e with ⟨i, -, rfl⟩ | ⟨-, rfl⟩
    · obtain ⟨-, hregs, -⟩ := s.push_effects (s.decSp.x i)
      exact fun k hk => (State.advance_x _ _ k).trans (hregs k hk)
    · exact fun _ _ => rfl
  | pop a =>
    rcases exec_pop_next e with ⟨i, rfl, rfl⟩ | ⟨-, rfl⟩
    · intro k hk
      rw [State.advance_x, State.incSp_x_other _ _ fun h => hk (by simp [writtenRegs, h]),
        State.setX_x_other _ _ _ _ fun h => hk (by simp [writtenRegs, h])]
    · exact fun _ _ => rfl
  | prn a =>
    rcases exec_prn_next e with ⟨i, -, rfl⟩ | ⟨-, rfl⟩
    · exact fun k _ => State.advance_x _ _ k
    · exact fun _ _ => rfl
  | call a =>
    rcases exec_call_next e with ⟨i, -, -, rfl⟩ | ⟨i, -, -, rfl⟩ | ⟨-, rfl⟩
    · obtain ⟨-, hregs, -⟩ := s.push_effects (narrow (s.pc.toNat + 2))
      exact hregs
    · exact fun _ _ => rfl
    · exact fun _ _ => rfl
  | jmp a => rcases exec_jmp_next e with ⟨i, -, rfl⟩ | ⟨-, rfl⟩ <;> exact fun _ _ => rfl
  | jeq a =>
    rcases exec_jeq_next e with ⟨-, i, -, rfl⟩ | ⟨-, -, rfl⟩ | ⟨-, -, rfl⟩ | ⟨-, -, rfl⟩ <;> exact fun _ _ => rfl
  | jne a =>
    rcases exec_jne_next e with ⟨-, i, -, rfl⟩ | ⟨-, -, rfl⟩ | ⟨-, -, rfl⟩ | ⟨-, -, rfl⟩ <;> exact fun _ _ => rfl
  | cmp a b =>
    rcases exec_cmp_next e with ⟨i, j, -, -, rfl⟩ | ⟨c, -, -, rfl⟩
    · exact fun k _ => State.advance_x _ _ k
    · exact fun _ _ => rfl
  | ldi a imm =>
    rcases exec_ldi_next e with ⟨d, rfl, rfl⟩ | ⟨-, rfl⟩
    · exact s.sameRegsExcept_setX_advance d _ 3
    · exact fun _ _ => rfl
  | not a b =>
    rcases exec_not_next e with ⟨d, rfl, rfl⟩ | ⟨-, rfl⟩
    · exact s.sameRegsExcept_setX_advance d _ 3
    · exact fun _ _ => rfl
  | mod a b =>
    rcases exec_mod_next e with ⟨d, j, rfl, -, -, rfl⟩ | ⟨d, j, -, -, -, rfl⟩ | ⟨c, -, -, rfl⟩
    · exact s.sameRegsExcept_setX_advance d _ 3
    · exact fun _ _ => rfl
    · exact fun _ _ => rfl
  | add a b | mult a b | and a b | or a b | xor a b | shl a b | shr a b =>
    exact exec_binary_sameRegs (a := a) (b := b) (by simp) e

/-! ### Status, output and memory -/

/-- Every instruction but HALT keeps `STATUS` or faults. -/
theorem exec_sameStatusOrFaulted {i : Instr} (hi : i ≠ .halt) (e : exec i s = .next t) : s.SameStatusOrFaulted t := by
  rcases exec_outcome e with ⟨h, -⟩ | ⟨r, rfl, -⟩ | ⟨-, hs, -⟩ | ⟨u, -, -, rfl, -, hs, -⟩
  · exact absurd h hi
  · exact .inr ⟨_, _, rfl⟩
  · exact .inl hs
  · rcases u.advance_cases (i.opcode.nopsColumn + 1) with ⟨-, ha⟩ | ⟨-, ha⟩ <;> rw [ha]
    · exact .inl hs
    · exact .inr ⟨_, _, rfl⟩

theorem exec_out_of_not_prn {i : Instr} (hi : i.opcode ≠ .prn) (e : exec i s = .next t) : t.out = s.out :=
  (exec_out e).resolve_right fun ⟨_, h, _⟩ => hi (by rw [h]; rfl)

theorem exec_sameMemory {i : Instr} (hpush : i.opcode ≠ .push) (hcall : i.opcode ≠ .call) (e : exec i s = .next t) :
    s.SameMemory t := by
  rcases exec_mem e with h | ⟨b, a, v, rfl | rfl, -⟩
  · exact fun c => congrArg (Memory.read · c.toNat) h
  · exact absurd rfl hpush
  · exact absurd rfl hcall

/-- The frame of an instruction that is no CMP, PRN, PUSH, CALL or HALT. -/
theorem exec_frame {i : Instr} (hi : i.opcode ∉ [.cmp, .prn, .push, .call, .halt]) (e : exec i s = .next t) :
    s.SameRegsExcept t (writtenRegs i) ∧ t.fl = s.fl ∧ s.SameMemory t ∧ t.out = s.out ∧ s.SameStatusOrFaulted t := by
  simp only [List.mem_cons, List.not_mem_nil, or_false, not_or] at hi
  obtain ⟨hcmp, hprn, hpush, hcall, hhalt⟩ := hi
  exact ⟨exec_sameRegs e, exec_fl_of_not_cmp hcmp e, exec_sameMemory hpush hcall e, exec_out_of_not_prn hprn e,
    exec_sameStatusOrFaulted (fun h => hhalt (by rw [h]; rfl)) e⟩

/-- An instruction that lists no register keeps them all. -/
theorem State.SameRegsExcept.all (h : s.SameRegsExcept t []) (k : Fin 8) : t.x k = s.x k :=
  h k List.not_mem_nil

/-! ### `FL` after CMP, and the byte that PUSH and CALL store -/

theorem compareFlags_one_bit (x y : Word) :
    compareFlags x y = 0b00000001 ∨ compareFlags x y = 0b00000010 ∨ compareFlags x y = 0b00000100 := by
  rcases compareFlags_cases x y with ⟨-, h⟩ | ⟨-, h⟩ | ⟨-, h⟩
  · exact .inl h
  · exact .inr (.inl h)
  · exact .inr (.inr h)

/-- PUSH and CALL store at most one byte, at `SP` after the decrement. -/
theorem exec_sameMemoryExcept {i : Instr} {a : Byte} (hi : i = .push a ∨ i = .call a) (e : exec i s = .next t) :
    s.SameMemoryExcept t s.decSp.sp := by
  have hpush : ∀ v, s.SameMemoryExcept (s.decSp.storeAtSp v) s.decSp.sp := s.decSp.sameMemoryExcept_storeAtSp
  rcases hi with rfl | rfl
  · rcases exec_push_next e with ⟨i, -, rfl⟩ | ⟨-, rfl⟩
    · exact fun c hc => (State.advance_readByte _ _ c).trans (hpush _ c hc)
    · exact fun _ _ => rfl
  · rcases exec_call_next e with ⟨i, -, -, rfl⟩ | ⟨i, -, -, rfl⟩ | ⟨-, rfl⟩
    · exact hpush _
    · exact fun _ _ => rfl
    · exact fun _ _ => rfl

end

/-! ### The statements -/

/-- Settles O34: each of the ten lists its first operand byte alone, and the rest is `exec_frame`. -/
theorem frameOfRegisterWriters : Obligations.FrameOfRegisterWriters := by
  intro s t i d b hi e
  obtain rfl | rfl | rfl | rfl | rfl | rfl | rfl | rfl | rfl | rfl := hi
  all_goals exact exec_frame (by simp [Instr.opcode]) e

/-- Settles O35: `FL` is the outcome of the compare, or the register check faulted before it was written. -/
theorem frameOfCompare : Obligations.FrameOfCompare := by
  intro s t a b e
  refine ⟨(exec_sameRegs e).all, exec_sameMemory (by simp [Instr.opcode]) (by simp [Instr.opcode]) e,
    exec_out_of_not_prn (by simp [Instr.opcode]) e, exec_sameStatusOrFaulted (by simp) e, ?_⟩
  rcases exec_cmp_next e with ⟨i, j, rfl, rfl, rfl⟩ | ⟨c, hc, habove, rfl⟩
  · refine ⟨fun _ _ => ?_, fun h => ?_⟩
    · rw [State.advance_fl]
      exact compareFlags_one_bit _ _
    · rw [toNat_regByte, toNat_regByte] at h
      omega
  · refine ⟨fun ha hb => ?_, fun _ => rfl⟩
    rcases hc with rfl | ⟨-, rfl⟩ <;> omega

/-- Settles O36: the jumps list no register, and the rest is `exec_frame`. -/
theorem frameOfJumps : Obligations.FrameOfJumps := by
  intro s t i a hi e
  have hframe : writtenRegs i = [] ∧ i.opcode ∉ [.cmp, .prn, .push, .call, .halt] := by
    obtain rfl | rfl | rfl := hi
    all_goals exact ⟨rfl, by simp [Instr.opcode]⟩
  obtain ⟨hregs, hrest⟩ := exec_frame hframe.2 e
  exact ⟨(hframe.1 ▸ hregs).all, hrest⟩

/-- Settles O37: none of the three lists a register, and PRN alone adds to `OUT`. -/
theorem frameOfSimpleInstructions : Obligations.FrameOfSimpleInstructions := by
  intro s t i hi e
  have hout : s.out <+: t.out := by
    rcases exec_out e with h | ⟨k, -, h⟩ <;> rw [h]
    exact ⟨_, rfl⟩
  obtain rfl | rfl | ⟨a, rfl⟩ := hi
  all_goals
    refine ⟨(exec_sameRegs e).all, exec_fl_of_not_cmp (by simp [Instr.opcode]) e,
      exec_sameMemory (by simp [Instr.opcode]) (by simp [Instr.opcode]) e, fun h => ?_, hout,
      fun h => exec_sameStatusOrFaulted h e⟩
  · exact exec_out_of_not_prn (by simp [Instr.opcode]) e
  · exact exec_out_of_not_prn (by simp [Instr.opcode]) e
  · simp at h

/-- Settles O38: `SP` is the one register listed, and the byte stored is at `SP` after the decrement. -/
theorem frameOfStackStores : Obligations.FrameOfStackStores := by
  intro s t i a hi e
  have hmem := exec_sameMemoryExcept hi e
  obtain rfl | rfl := hi
  all_goals
    exact ⟨exec_sameRegs e, exec_fl_of_not_cmp (by simp [Instr.opcode]) e,
      exec_out_of_not_prn (by simp [Instr.opcode]) e, exec_sameStatusOrFaulted (by simp) e, fun _ h => h ▸ hmem⟩

/-- Settles O39: by `exec_frame`; RET completes from every state, so `STATUS` stays. -/
theorem frameOfStackLoads : Obligations.FrameOfStackLoads := by
  refine fun s t => ⟨fun a e => ?_, fun e => ?_⟩
  · obtain ⟨hregs, hfl, hmem, hout, hstatus⟩ := exec_frame (by simp [Instr.opcode]) e
    exact ⟨hregs, hfl, hout, hmem, hstatus⟩
  · obtain ⟨hregs, hfl, hmem, hout, -⟩ := exec_frame (by simp [Instr.opcode]) e
    exact ⟨hregs, hfl, hout, hmem, by rw [exec_ret_next e]; rfl⟩

end Sys2Proof.Machine
end

section
/-! PROOFS. `pc` at the end of a step (40_dispatcher.md R66, R67, 10_state.md R16): where it goes, and what the advance
past address 255 keeps and comes after. -/

namespace Sys2Proof.Machine

/-! ### Where `pc` goes -/

theorem State.goneWrong_raise (s : State) (r : Raised) : (s.raise r).GoneWrong :=
  ⟨_, _, rfl⟩

/-- The register list of `nextPc` at a register operand is that register. -/
theorem State.getD_regs_regByte (s : State) (i : Fin 8) : s.regs.toList.getD (regByte i).toNat 0 = s.x i := by
  rw [toNat_regByte, List.getD_eq_getElem _ _ (by rw [Vector.length_toList]; exact i.isLt), Vector.getElem_toList]
  rfl

theorem regByte_eq_seven_iff (i : Fin 8) : regByte i = 7 ↔ i = 7 := by
  revert i
  decide

section
variable {i : Instr} {s t : State}

theorem nextPc_of_auto (hs : i.opcode.selfposColumn = false) (hi : i ≠ .halt) :
    nextPc i s = s.pc.toNat + (i.opcode.nopsColumn + 1) := by
  cases i with
  | halt => exact absurd rfl hi
  | ret | call | jmp | jeq | jne => cases hs
  | _ => rfl

/-- An instruction whose opcode does not position `pc` itself: HALT keeps it, the others go to the next one. -/
theorem exec_pc_of_auto (hs : i.opcode.selfposColumn = false) (e : exec i s = .next t) (ht : ¬ t.GoneWrong) :
    t.pc.toNat = nextPc i s := by
  rcases exec_outcome e with ⟨rfl, rfl⟩ | ⟨r, rfl, -⟩ | ⟨hself, -⟩ | ⟨u, hi, -, rfl, hpc, -⟩
  · rfl
  · exact absurd (s.goneWrong_raise r) ht
  · cases hself.symm.trans hs
  · rw [nextPc_of_auto hs hi, ← hpc]
    rcases u.advance_cases (i.opcode.nopsColumn + 1) with ⟨hfit, -⟩ | ⟨-, ha⟩
    · exact State.advance_pc_of_le hfit
    · rw [ha] at ht
      exact absurd (u.goneWrong_raise _) ht

/-- Where `pc` goes when the instruction does not fault (10_state.md R16). -/
theorem exec_pc (e : exec i s = .next t) (ht : ¬ t.GoneWrong) : t.pc.toNat = nextPc i s := by
  cases i with
  | ret => rw [exec_ret_next e]; rfl
  | call a =>
    rcases exec_call_next e with ⟨i, rfl, -, rfl⟩ | ⟨i, -, -, rfl⟩ | ⟨-, rfl⟩
    · simp only [nextPc, State.setPc_pc, s.decSp_x, s.getD_regs_regByte, regByte_eq_seven_iff, s.sp_eq,
        apply_ite BitVec.toNat]
    · exact absurd (s.goneWrong_raise _) ht
    · exact absurd (s.goneWrong_raise _) ht
  | jmp a =>
    rcases exec_jmp_next e with ⟨i, rfl, rfl⟩ | ⟨-, rfl⟩
    · rw [nextPc, s.getD_regs_regByte, State.setPc_pc]
    · exact absurd (s.goneWrong_raise _) ht
  | jeq a =>
    rcases exec_jeq_next e with ⟨hfl, i, rfl, rfl⟩ | ⟨-, -, rfl⟩ | ⟨hfl, hp, rfl⟩ | ⟨-, -, rfl⟩
    · rw [nextPc, if_pos hfl, s.getD_regs_regByte, State.setPc_pc]
    · exact absurd (s.goneWrong_raise _) ht
    · rw [nextPc, if_neg hfl, State.setPc_pc, toNat_narrow_of_lt (Nat.lt_succ_of_le hp)]
    · exact absurd (s.goneWrong_raise _) ht
  | jne a =>
    rcases exec_jne_next e with ⟨hfl, i, rfl, rfl⟩ | ⟨-, -, rfl⟩ | ⟨hfl, hp, rfl⟩ | ⟨-, -, rfl⟩
    · rw [nextPc, if_neg hfl, s.getD_regs_regByte, State.setPc_pc]
    · exact absurd (s.goneWrong_raise _) ht
    · rw [nextPc, if_pos hfl, State.setPc_pc, toNat_narrow_of_lt (Nat.lt_succ_of_le hp)]
    · exact absurd (s.goneWrong_raise _) ht
  | _ => exact exec_pc_of_auto rfl e ht

/-! ### The advance comes last -/

/-- The faults that come before any effect need a register byte above 7, MOD, or an opcode that positions `pc`. -/
theorem RaisesEarly.elim_of_auto {r : Raised} (h : RaisesEarly i s r) (hwf : i.wellFormed = true)
    (hs : i.opcode.selfposColumn = false) : i.opcode = .mod := by
  rcases h with ⟨hill, -⟩ | ⟨d, j, rfl, -⟩ | ⟨ho, -⟩ | ⟨ho | ho, -⟩
  · cases hill.symm.trans hwf
  · rfl
  all_goals rw [ho] at hs; cases hs

/-- An instruction with registers in range whose advance ends at address 256 reaches that fault. -/
theorem exec_pcAdvance (hwf : i.wellFormed = true) (hs : i.opcode.selfposColumn = false) (hi : i ≠ .halt)
    (hmod : i.opcode ≠ .mod) (hend : s.pc.toNat + (i.opcode.nopsColumn + 1) = 256) (e : exec i s = .next t) :
    t.status = .faulted .pcAdvance 256 := by
  rcases exec_outcome e with ⟨h, -⟩ | ⟨r, -, he⟩ | ⟨hself, -⟩ | ⟨u, -, -, rfl, hpc, -⟩
  · exact absurd h hi
  · exact absurd (he.elim_of_auto hwf hs) hmod
  · cases hself.symm.trans hs
  · rw [State.advance_of_eq (hpc ▸ hend)]
    rfl

end

/-! ### What an auto-advancing handler does not look at -/

/-- The same state with another `pc` and another `STATUS`. -/
def State.withControl (pc : Word) (st : Status) (s : State) : State := { s with pc := pc, status := st }

/-- A handler that neither reads nor writes `pc` and `STATUS`. -/
def IgnoresControl (h : State → Handled) : Prop :=
  ∀ (s : State) (pc : Word) (st : Status), h (s.withControl pc st) = (h s).map (State.withControl pc st)

/-- What such a handler completes in holds the old `pc` and `STATUS`. -/
theorem IgnoresControl.keeps {h : State → Handled} (hh : IgnoresControl h) {s u : State} (hu : h s = .ok u) :
    u.pc = s.pc ∧ u.status = s.status := by
  have hself : h s = (h s).map (State.withControl s.pc s.status) := hh s s.pc s.status
  rw [hu] at hself
  have hu' : u = u.withControl s.pc s.status := Except.ok.inj hself
  rw [hu']
  exact ⟨rfl, rfl⟩

theorem writeFromBoth_ignoresControl (op : Nat → Nat → Nat) (a b : Byte) : IgnoresControl (writeFromBoth op a b) :=
  fun _ _ _ => withRegs_map a b fun _ _ => rfl

/-- The meaning of an auto-advancing instruction other than HALT is the end of a step after such a handler. -/
theorem exists_handler_of_auto {i : Instr} (hs : i.opcode.selfposColumn = false) (hi : i ≠ .halt) :
    ∃ h, IgnoresControl h ∧ ∀ s, exec i s = finish i.opcode s (h s) := by
  cases i with
  | halt => exact absurd rfl hi
  | ret | call | jmp | jeq | jne => cases hs
  | nop => exact ⟨.ok, fun _ _ _ => rfl, exec_nop⟩
  | push a => exact ⟨handlePush a, fun _ _ _ => withReg_map a fun _ => rfl, exec_push a⟩
  | pop a => exact ⟨handlePop a, fun _ _ _ => withReg_map a fun _ => rfl, exec_pop a⟩
  | prn a => exact ⟨handlePrn a, fun _ _ _ => withReg_map a fun _ => rfl, exec_prn a⟩
  | ldi a imm => exact ⟨handleLdi a imm, fun _ _ _ => withReg_map a fun _ => rfl, exec_ldi a imm⟩
  | not a b => exact ⟨aluNot a b, fun _ _ _ => withReg_map a fun _ => rfl, exec_not a b⟩
  | mod a b => exact ⟨aluMod a b, fun _ _ _ => withRegs_map a b fun _ _ => ite_map rfl rfl, exec_mod a b⟩
  | cmp a b => exact ⟨aluCmp a b, fun _ _ _ => withRegs_map a b fun _ _ => rfl, exec_cmp a b⟩
  | add a b => exact ⟨_, writeFromBoth_ignoresControl _ a b, exec_add a b⟩
  | mult a b => exact ⟨_, writeFromBoth_ignoresControl _ a b, exec_mult a b⟩
  | and a b => exact ⟨_, writeFromBoth_ignoresControl _ a b, exec_and a b⟩
  | or a b => exact ⟨_, writeFromBoth_ignoresControl _ a b, exec_or a b⟩
  | xor a b => exact ⟨_, writeFromBoth_ignoresControl _ a b, exec_xor a b⟩
  | shl a b => exact ⟨_, writeFromBoth_ignoresControl _ a b, exec_shl a b⟩
  | shr a b => exact ⟨_, writeFromBoth_ignoresControl _ a b, exec_shr a b⟩

/-! ### The statements -/

/-- Settles O45: the fetch comes first, then the register check of MOD and CALL, then their own faults; the advance is
reached by an instruction that raises none of these. -/
theorem faultsAreReportedInPriorityOrder : Obligations.FaultsAreReportedInPriorityOrder := by
  intro s t hr e
  refine ⟨fun ho => ?_, fun o ho hpast => ?_, fun a b rest hd => ?_, fun a rest hd => ?_,
    fun i rest hd hwf hs hi hmod hend => ?_⟩
  · cases (step_of_unknownOpcode hr ho).symm.trans e
    rfl
  · cases (step_of_operands_past_end hr ho hpast).symm.trans e
    rfl
  · have he : exec (.mod a b) s = .next t := (step_of_decode hr hd).symm.trans e
    obtain ⟨hleft, hright⟩ := checksBothRegisters_of_withRegs exec_mod s a b
    refine ⟨fun ha => ?_, fun ha hb => ?_, fun i j ha hb hz => ?_⟩
    · cases (hleft ha).symm.trans he
      rfl
    · cases (hright ha hb).symm.trans he
      rfl
    · subst ha hb
      cases (exec_mod_of_eq_zero hz).symm.trans he
      rfl
  · have he : exec (.call a) s = .next t := (step_of_decode hr hd).symm.trans e
    refine ⟨fun ha => ?_, fun ha hpc => ?_⟩
    · cases (checksRegister_of_withReg (fun a s => exec_call a s) s a ha).symm.trans he
      rfl
    · obtain ⟨i, rfl⟩ := exists_regByte (Nat.lt_succ_of_le ha)
      cases (exec_call_of_eq s i hpc).symm.trans he
      rfl
  · have hfit := State.pc_add_nopsColumn_le hd
    rw [length_encode] at hend
    exact exec_pcAdvance hwf hs hi hmod (by omega) ((step_of_decode hr hd).symm.trans e)

/-- Settles O46: the handler does not look at `pc`, so from 0 it completes alike, and only there does the advance fit. -/
theorem pcAdvanceFaultKeepsTheEffects : Obligations.PcAdvanceFaultKeepsTheEffects := by
  intro s t i hs hi hr hend e
  obtain ⟨h, hh, he⟩ := exists_handler_of_auto hs hi
  have hzero : h { s with pc := 0 } = (h s).map (State.withControl 0 s.status) := hh s 0 s.status
  rw [he, hzero] at e
  rw [he s]
  rw [length_encode] at hend ⊢
  cases hu : h s with
  | error r =>
    rw [hu] at e
    cases e
    exact ⟨Status.noConfusion, fun _ => rfl⟩
  | ok u =>
    obtain ⟨hpc, -⟩ := hh.keeps hu
    have hadvance : u.advance (i.opcode.nopsColumn + 1) =
        u.raise ⟨.pcAdvance, infoOfNat (s.pc.toNat + (i.opcode.nopsColumn + 1))⟩ := by
      rw [State.advance_of_gt (by rwa [hpc]), hpc]
    have hfit : (u.withControl 0 s.status).pc.toNat + (i.opcode.nopsColumn + 1) ≤ 255 := by
      have := i.opcode.nopsColumn_le_two
      show 0 + _ ≤ 255
      omega
    rw [hu] at e
    cases (finish_ok_auto hs _ _).symm.trans e
    rw [finish_ok_auto hs, hadvance, State.advance_of_le hfit, ← hpc]
    refine ⟨fun _ => rfl, fun ⟨c, info, h⟩ => ?_⟩
    cases (show s.status = .faulted c info from h).symm.trans hr

/-- Settles O47: a fault leaves `pc` by `step_faulted`; otherwise by `exec_pc`. -/
theorem pcAfterEachInstruction : Obligations.PcAfterEachInstruction := by
  intro s t i rest hr hd e
  refine ⟨fun ⟨c, info, ht⟩ => ?_, exec_pc ((step_of_decode hr hd).symm.trans e)⟩
  obtain ⟨hpc, -⟩ := step_faulted hr e ht
  exact hpc

end Sys2Proof.Machine
end
